-- ==== Sys2Proof/Word.lean ====
section
/-! DEFINITION. The word types of the PRNG core (spec/00_scope.md R7): `u8`, `u32`, `u64`, all unsigned. Arithmetic on
them is `BitVec` arithmetic, so it wraps at the width of the operands and never signals (R8). -/

namespace Sys2Proof

/-- `u8`: a command word, a status byte, one byte of a payload, of a response or of an entropy reply (R7, R25). -/
abbrev Byte := BitVec 8

/-- `u32`: one PCG output word (R7). -/
abbrev Half := BitVec 32

/-- `u64`: a state word, a seed word, a constant, `LEN`, `delta` or a 64-bit output (R7). -/
abbrev Word := BitVec 64

/-- The opaque failure code of the entropy source, `ECODE_W = 32` bits (R6, R47; 92_eei_decisions.md D12). -/
abbrev ErrorCode := BitVec 32

end Sys2Proof
end

