-- ==== Sys2Proof/Machine/Operands.lean ====
section
/-! DEFINITION. The primitive operations of spec/00_scope.md R9 and the byte order of spec/20_memory.md R26, R27: one
home for rotates, truncation, and the little-endian reading and writing of payloads. -/

namespace Sys2Proof.Machine

/-- `trunc32(a) = a[31:0]` (R9). -/
def trunc32 (a : Word) : Half := a.extractLsb' 0 32

/-- `zext_64(v)` (R9). -/
def zext64 (v : Half) : Word := v.setWidth 64

/-- `rotl64(a, k)`, `0 <= k <= 63` (R9): the case `k = 0` stands apart, because the two-shift formula would shift by
the full width there. -/
def rotl64 (a : Word) (k : Nat) : Word :=
  if k = 0 then a else (a <<< k) ||| (a >>> (64 - k))

/-- `rotr32(v, r)`, `0 <= r <= 31` (R9), the case `r = 0` apart as in `rotl64`. -/
def rotr32 (v : Half) (r : Nat) : Half :=
  if r = 0 then v else (v >>> r) ||| (v <<< (32 - r))

/-- `le64(b) = b[0] + b[1]*2^8 + ... + b[7]*2^56` (R9, R26), by Horner's rule. -/
def le64 (b : List Byte) : Word :=
  match b with
  | [] => 0#64
  | x :: rest => x.setWidth 64 + le64 rest * 256#64

/-- `bytes_le64(w)`: byte `i` is `w[8i+7:8i]`, `i = 0..7` (R9, R26). -/
def bytesLe64 (w : Word) : List Byte :=
  (List.range 8).map fun i => w.extractLsb' (8 * i) 8

/-- `bytes_le32(v)`: byte `i` is `v[8i+7:8i]`, `i = 0..3` (R9, R26). -/
def bytesLe32 (v : Half) : List Byte :=
  (List.range 4).map fun i => v.extractLsb' (8 * i) 8

/-- `MemRead(a, 8)` on a byte sequence (R10, R41): bytes `a .. a+7`, little-endian. -/
def memRead64 (p : List Byte) (a : Nat) : Word := le64 ((p.drop a).take 8)

end Sys2Proof.Machine
end

