-- ==== Sys2Proof/Config.lean ====
section
/-! DEFINITION. What is fixed when the block is built (spec/00_scope.md R6): the wired constants, the decided parameters,
the three OPEN parameters, and the one family of free values the model uses. -/

namespace Sys2Proof

/-- The OPEN parameters of R6 (92_eei_decisions.md D13, D14, D15). A model takes them as arguments: here they are one
field of `State` that no step writes (R18), so a statement about every state quantifies over them.
DESIGN CHOICE (notes/assumptions/2.md). -/
structure Params where
  /-- `HAS_PCG_ADVANCE` (D15): the jump-ahead unit, command 0x06, is present. -/
  hasPcgAdvance : Bool
  /-- `HAS_PERSIST` (D14): `SAVE` and `LOAD`, commands 0x08, 0x09, 0x18, 0x19, are present. -/
  hasPersist : Bool
  /-- `ZERO_SEED_SUBST[0]` (D13, R88). -/
  z0 : Word
  /-- `ZERO_SEED_SUBST[1]`. -/
  z1 : Word
  /-- `ZERO_SEED_SUBST[2]`. -/
  z2 : Word
  /-- `ZERO_SEED_SUBST[3]`. -/
  z3 : Word
  deriving DecidableEq, Repr

namespace Config

/-- The PCG multiplier `M = 6364136223846793005` (R6, R63). -/
def multiplier : Word := 6364136223846793005#64

/-- The Xoshiro256** jump polynomial `JUMP[0..3]`, in array order (R6, R95). -/
def jump : List Word :=
  [0x180EC6D33CFD0ABA#64, 0xD5A61266F0C9392C#64, 0xA9582618E03FC9AA#64, 0x39ABDC4529B1661C#64]

/-- `PCG_U64_HIGH_FIRST = true` (R6, R71; D9): the first 32-bit draw of `PCG.NEXT64` is the high half of the result. It
is kept as a named parameter, so that a claim about a numeric value can say that it depends on it. -/
def pcgHighFirst : Bool := true

/-- The values the OPEN parameters have in the test vectors of spec/95_test_vectors.md (R6). They are the parameters of
`State.reset` and of `decodeTableWord`; no statement about every state rests on them.
DESIGN CHOICE (notes/assumptions/2.md). -/
def defaultParams : Params where
  hasPcgAdvance := true
  hasPersist := true
  z0 := 0xE220A8397B1DCDAF#64
  z1 := 0x6E789E6AA1B965F4#64
  z2 := 0x06C45D188009454F#64
  z3 := 0xF88BB8A8724C81EC#64

/-- What an engine's state words hold after reset: R24 and R113 leave them unspecified and forbid a model to pick a
value, so they are FREE VALUES. The `n`-th word that a reset leaves unspecified holds `freeWord n`; nothing
can be proved of it. DESIGN CHOICE (notes/assumptions/1.md). -/
opaque freeWord : Nat → Word

end Config
end Sys2Proof
end

