-- ==== Sys2Proof/Syntax.lean ====
section
/-! DEFINITION. The 20 commands of the block (spec/30_encoding.md R39, R40; spec/opcode_table.json) with their assembled
operands (R41): every operand is a 64-bit unsigned value and every one of the 2^64 values is legal. -/

namespace Sys2Proof

/-- One command of the host, decoded. One constructor per row of spec/opcode_table.json, in the table's order. -/
inductive Instr where
  /-- `PCG.SEED`, 0x00 (R68): `state_word` (the `seed` argument) and `seq_word` (the `seq` argument). -/
  | pcgSeed (seed seq : Word)
  /-- `PCG.SEEDRNG`, 0x01 (R69). -/
  | pcgSeedrng
  /-- `PCG.NEXT32`, 0x02 (R70). -/
  | pcgNext32
  /-- `PCG.NEXT64`, 0x03 (R71). -/
  | pcgNext64
  /-- `PCG.FILL`, 0x04 (R72): the byte count `LEN`. -/
  | pcgFill (len : Word)
  /-- `PCG.TRYFILL`, 0x05 (R73): the byte count `LEN`. -/
  | pcgTryfill (len : Word)
  /-- `PCG.ADVANCE`, 0x06 (R76): the step count `delta`. -/
  | pcgAdvance (delta : Word)
  /-- `PCG.SAVE`, 0x08 (R77). -/
  | pcgSave
  /-- `PCG.LOAD`, 0x09 (R78): the images of `PCG.state` and `PCG.inc`. -/
  | pcgLoad (st ic : Word)
  /-- `PCG.STAT`, 0x0A (R79). -/
  | pcgStat
  /-- `XO.SEED`, 0x10 (R89): the four seed words. -/
  | xoSeed (w0 w1 w2 w3 : Word)
  /-- `XO.SEEDRNG`, 0x11 (R90). -/
  | xoSeedrng
  /-- `XO.NEXT32`, 0x12 (R92). -/
  | xoNext32
  /-- `XO.NEXT64`, 0x13 (R91). -/
  | xoNext64
  /-- `XO.FILL`, 0x14 (R93): the byte count `LEN`. -/
  | xoFill (len : Word)
  /-- `XO.TRYFILL`, 0x15 (R94): the byte count `LEN`. -/
  | xoTryfill (len : Word)
  /-- `XO.JUMP`, 0x17 (R96). -/
  | xoJump
  /-- `XO.SAVE`, 0x18 (R97). -/
  | xoSave
  /-- `XO.LOAD`, 0x19 (R98): the images of `XO.s0 .. XO.s3`. -/
  | xoLoad (w0 w1 w2 w3 : Word)
  /-- `XO.STAT`, 0x1A (R99). -/
  | xoStat
  deriving DecidableEq, Repr

end Sys2Proof
end

