-- ==== Sys2Proof/WellFormed.lean ====
section
/-! DEFINITION. Which commands a build of the block has: the parameter gates of spec/30_encoding.md R45. Operands need no
check, since all 2^64 values of each are legal (R41). -/

namespace Sys2Proof

/-- `i.wf p`: the command `i` exists in a block built with the parameters `p` (R45). -/
def Instr.wf (p : Params) (i : Instr) : Bool :=
  match i with
  | .pcgSeed _ _ => true
  | .pcgSeedrng => true
  | .pcgNext32 => true
  | .pcgNext64 => true
  | .pcgFill _ => true
  | .pcgTryfill _ => true
  | .pcgAdvance _ => p.hasPcgAdvance
  | .pcgSave => p.hasPersist
  | .pcgLoad _ _ => p.hasPersist
  | .pcgStat => true
  | .xoSeed _ _ _ _ => true
  | .xoSeedrng => true
  | .xoNext32 => true
  | .xoNext64 => true
  | .xoFill _ => true
  | .xoTryfill _ => true
  | .xoJump => true
  | .xoSave => p.hasPersist
  | .xoLoad _ _ _ _ => p.hasPersist
  | .xoStat => true

end Sys2Proof
end

