-- ==== Sys2Proof/Decode.lean ====
section
/-! DEFINITION. Command frames and their decoding (spec/30_encoding.md R37 to R41, R44 to R46, R50), total on every frame
and rejecting by name; then the encoder, written from the same tables. -/

namespace Sys2Proof

/-- A command frame (R37): the command word `CMD` and the payload `P`, `P[0]` first. -/
structure Frame where
  cmd : Byte
  payload : List Byte
  deriving DecidableEq, Repr

/-- The 20 operations of the opcode map R39, without operands. -/
inductive Command where
  | pcgSeed | pcgSeedrng | pcgNext32 | pcgNext64 | pcgFill | pcgTryfill | pcgAdvance | pcgSave | pcgLoad | pcgStat
  | xoSeed | xoSeedrng | xoNext32 | xoNext64 | xoFill | xoTryfill | xoJump | xoSave | xoLoad | xoStat
  deriving DecidableEq, Repr

/-- Why a frame is illegal: the five clauses of R44. -/
inductive Illegal where
  /-- R44 (a): `CMD[7:5] != 000`. -/
  | reservedBits
  /-- R44 (b): `CMD[3:0]` in 0xB .. 0xF. -/
  | reservedOp
  /-- R44 (c): `JUMP` addressed to the PCG engine (0x07) or `ADVANCE` addressed to the XO engine (0x16). -/
  | wrongEngine
  /-- R44 (d): the command is absent under the parameters (R45). -/
  | gatedOff
  /-- R44 (e): the payload length differs from R40. -/
  | payloadLength
  deriving DecidableEq, Repr

/-- The opcode map R39: `eng` is `CMD[4]` (false = PCG, true = XO), `op` is `CMD[3:0]`. -/
def opcodeMap (eng : Bool) (op : Nat) : Except Illegal Command :=
  match eng, op with
  | false, 0x0 => .ok .pcgSeed
  | false, 0x1 => .ok .pcgSeedrng
  | false, 0x2 => .ok .pcgNext32
  | false, 0x3 => .ok .pcgNext64
  | false, 0x4 => .ok .pcgFill
  | false, 0x5 => .ok .pcgTryfill
  | false, 0x6 => .ok .pcgAdvance
  | false, 0x7 => .error .wrongEngine
  | false, 0x8 => .ok .pcgSave
  | false, 0x9 => .ok .pcgLoad
  | false, 0xA => .ok .pcgStat
  | true, 0x0 => .ok .xoSeed
  | true, 0x1 => .ok .xoSeedrng
  | true, 0x2 => .ok .xoNext32
  | true, 0x3 => .ok .xoNext64
  | true, 0x4 => .ok .xoFill
  | true, 0x5 => .ok .xoTryfill
  | true, 0x6 => .error .wrongEngine
  | true, 0x7 => .ok .xoJump
  | true, 0x8 => .ok .xoSave
  | true, 0x9 => .ok .xoLoad
  | true, 0xA => .ok .xoStat
  | _, _ => .error .reservedOp

/-- Steps (1) and (2) of R50: the fields of the command word (R38) and the opcode map. -/
def commandOf (cmd : Byte) : Except Illegal Command :=
  if cmd.extractLsb' 5 3 ≠ 0#3 then .error .reservedBits
  else opcodeMap (cmd.getLsbD 4) (cmd.extractLsb' 0 4).toNat

/-- The command word of each operation (R39). -/
def Command.code (c : Command) : Byte :=
  match c with
  | .pcgSeed => 0x00#8
  | .pcgSeedrng => 0x01#8
  | .pcgNext32 => 0x02#8
  | .pcgNext64 => 0x03#8
  | .pcgFill => 0x04#8
  | .pcgTryfill => 0x05#8
  | .pcgAdvance => 0x06#8
  | .pcgSave => 0x08#8
  | .pcgLoad => 0x09#8
  | .pcgStat => 0x0A#8
  | .xoSeed => 0x10#8
  | .xoSeedrng => 0x11#8
  | .xoNext32 => 0x12#8
  | .xoNext64 => 0x13#8
  | .xoFill => 0x14#8
  | .xoTryfill => 0x15#8
  | .xoJump => 0x17#8
  | .xoSave => 0x18#8
  | .xoLoad => 0x19#8
  | .xoStat => 0x1A#8

/-- The payload length of each operation (R40). -/
def Command.payloadLength (c : Command) : Nat :=
  match c with
  | .pcgSeed | .pcgLoad => 16
  | .xoSeed | .xoLoad => 32
  | .pcgFill | .pcgTryfill | .xoFill | .xoTryfill | .pcgAdvance => 8
  | .pcgSeedrng | .xoSeedrng | .pcgNext32 | .xoNext32 | .pcgNext64 | .xoNext64 => 0
  | .xoJump | .pcgSave | .xoSave | .pcgStat | .xoStat => 0

/-- Step (3) of R50: the parameter gates (R45). -/
def Command.present (p : Params) (c : Command) : Bool :=
  match c with
  | .pcgAdvance => p.hasPcgAdvance
  | .pcgSave | .pcgLoad | .xoSave | .xoLoad => p.hasPersist
  | .pcgSeed | .pcgSeedrng | .pcgNext32 | .pcgNext64 | .pcgFill | .pcgTryfill | .pcgStat => true
  | .xoSeed | .xoSeedrng | .xoNext32 | .xoNext64 | .xoFill | .xoTryfill | .xoJump | .xoStat => true

/-- Step (5) of R50: the operands, assembled from the payload by R40 and R41. -/
def Command.assemble (c : Command) (p : List Byte) : Instr :=
  match c with
  | .pcgSeed => .pcgSeed (Machine.memRead64 p 0) (Machine.memRead64 p 8)
  | .pcgSeedrng => .pcgSeedrng
  | .pcgNext32 => .pcgNext32
  | .pcgNext64 => .pcgNext64
  | .pcgFill => .pcgFill (Machine.memRead64 p 0)
  | .pcgTryfill => .pcgTryfill (Machine.memRead64 p 0)
  | .pcgAdvance => .pcgAdvance (Machine.memRead64 p 0)
  | .pcgSave => .pcgSave
  | .pcgLoad => .pcgLoad (Machine.memRead64 p 0) (Machine.memRead64 p 8)
  | .pcgStat => .pcgStat
  | .xoSeed => .xoSeed (Machine.memRead64 p 0) (Machine.memRead64 p 8) (Machine.memRead64 p 16) (Machine.memRead64 p 24)
  | .xoSeedrng => .xoSeedrng
  | .xoNext32 => .xoNext32
  | .xoNext64 => .xoNext64
  | .xoFill => .xoFill (Machine.memRead64 p 0)
  | .xoTryfill => .xoTryfill (Machine.memRead64 p 0)
  | .xoJump => .xoJump
  | .xoSave => .xoSave
  | .xoLoad => .xoLoad (Machine.memRead64 p 0) (Machine.memRead64 p 8) (Machine.memRead64 p 16) (Machine.memRead64 p 24)
  | .xoStat => .xoStat

/-- Decoding a frame in a block built with the parameters `p`, in the order of R50: reserved bits, opcode map, gates,
payload length, operands. It reads no state and consumes no entropy. -/
def decode (p : Params) (f : Frame) : Except Illegal Instr :=
  match commandOf f.cmd with
  | .error e => .error e
  | .ok c =>
    if c.present p = false then .error .gatedOff
    else if f.payload.length ≠ c.payloadLength then .error .payloadLength
    else .ok (c.assemble f.payload)

/-- The operation of a command. -/
def Instr.command (i : Instr) : Command :=
  match i with
  | .pcgSeed _ _ => .pcgSeed
  | .pcgSeedrng => .pcgSeedrng
  | .pcgNext32 => .pcgNext32
  | .pcgNext64 => .pcgNext64
  | .pcgFill _ => .pcgFill
  | .pcgTryfill _ => .pcgTryfill
  | .pcgAdvance _ => .pcgAdvance
  | .pcgSave => .pcgSave
  | .pcgLoad _ _ => .pcgLoad
  | .pcgStat => .pcgStat
  | .xoSeed _ _ _ _ => .xoSeed
  | .xoSeedrng => .xoSeedrng
  | .xoNext32 => .xoNext32
  | .xoNext64 => .xoNext64
  | .xoFill _ => .xoFill
  | .xoTryfill _ => .xoTryfill
  | .xoJump => .xoJump
  | .xoSave => .xoSave
  | .xoLoad _ _ _ _ => .xoLoad
  | .xoStat => .xoStat

/-- The payload of a command (R40): its operands in order, each `bytes_le64`. -/
def Instr.payload (i : Instr) : List Byte :=
  match i with
  | .pcgSeed seed seq => Machine.bytesLe64 seed ++ Machine.bytesLe64 seq
  | .pcgLoad st ic => Machine.bytesLe64 st ++ Machine.bytesLe64 ic
  | .pcgFill len | .pcgTryfill len | .xoFill len | .xoTryfill len => Machine.bytesLe64 len
  | .pcgAdvance delta => Machine.bytesLe64 delta
  | .xoSeed w0 w1 w2 w3 | .xoLoad w0 w1 w2 w3 =>
    Machine.bytesLe64 w0 ++ Machine.bytesLe64 w1 ++ Machine.bytesLe64 w2 ++ Machine.bytesLe64 w3
  | .pcgSeedrng | .pcgNext32 | .pcgNext64 | .pcgSave | .pcgStat => []
  | .xoSeedrng | .xoNext32 | .xoNext64 | .xoJump | .xoSave | .xoStat => []

/-- The frame of a command (R37, R39, R40): what the assembler of R48 emits for it. -/
def encode (i : Instr) : Frame := ⟨i.command.code, i.payload⟩

/-- The payload length the opcode table gives a command word, 0 for an illegal one. -/
def tablePayloadLength (cmd : Byte) : Nat :=
  match commandOf cmd with
  | .ok c => c.payloadLength
  | .error _ => 0

/-- The frame whose bits are `w`, numbered as spec/opcode_table.json numbers them: bits 7..0 are the command word, the
following bytes the payload. Bits at or above `nbits` are 0, up to the payload length of the command word. -/
def tableFrame (nbits w : Nat) : Frame :=
  let v := w % 2 ^ nbits
  let cmd := BitVec.ofNat 8 v
  let n := max (tablePayloadLength cmd) (nbits / 8 - 1)
  ⟨cmd, (List.range n).map fun i => BitVec.ofNat 8 (v / 2 ^ (8 * (i + 1)))⟩

/-- The decoder's answer for an opcode-table word, in a block built with the parameters of the test vectors (R6). -/
def decodeTableWord (nbits w : Nat) : Option Instr :=
  match decode Config.defaultParams (tableFrame nbits w) with
  | .ok i => some i
  | .error _ => none

end Sys2Proof
end

