-- ==== Sys2Proof/Machine/State.lean ====
section
/-! DEFINITION. The state of the block (spec/10_state.md), its ports as the model holds them, and the state after reset.
The block's own state is two engines: six 64-bit words and two seeded flags (R11 to R18). Around it stand the build's
parameters and what crosses the three ports (host, entropy, reset), held as plain lists. -/

namespace Sys2Proof.Machine

/-- The PCG engine (R11, R12, R17). -/
structure PcgEngine where
  /-- `PCG.state`, the mutable counter. -/
  state : Word
  /-- `PCG.inc`, the stream selector. -/
  inc : Word
  /-- `PCG.seeded`: the engine holds an instance. -/
  seeded : Bool
  deriving DecidableEq, Repr

/-- The four words of the shift-register state, `(s0, s1, s2, s3)` (R13). -/
structure XoWords where
  s0 : Word
  s1 : Word
  s2 : Word
  s3 : Word
  deriving DecidableEq, Repr

/-- The Xoshiro256** engine (R13, R17). -/
structure XoEngine where
  /-- `XO.s0 .. XO.s3`. -/
  words : XoWords
  /-- `XO.seeded`: the engine holds an instance. -/
  seeded : Bool
  deriving DecidableEq, Repr

/-- The five statuses (R100). Their codes are `Status.code` of Machine/Ops.lean. -/
inductive Status where
  | ok | entropyFail | illegalCmd | notSeeded | badState
  deriving DecidableEq, Repr

/-- A response frame (R37): the status `ST` and the payload `Q`, `Q[0]` first. -/
structure Response where
  status : Status
  payload : List Byte
  deriving DecidableEq, Repr

/-- What the host does at the port (R122): it presents a frame, or the reset input is driven. -/
inductive HostEvent where
  | frame (f : Frame)
  | reset
  deriving DecidableEq, Repr

/-- The bytes of one good entropy reply, `B[0]` first. A request for `n` bytes is answered with the first `n` of them,
so every reply has the shape R47 guarantees, and all reply sequences of either request size are covered.
DESIGN CHOICE (notes/assumptions/4.md). -/
abbrev EntropyBytes := Vector Byte 32

/-- What the entropy source does next (R47, R56): it answers the outstanding request with `Ok(B)` or `Fail(e)`, or it has
not answered yet while one step of the model passes (R62: the wait for a reply is the one place where the block waits on
another agent). DESIGN CHOICE (notes/assumptions/4.md). -/
inductive EntropyEvent where
  | ok (b : EntropyBytes)
  | fail (e : ErrorCode)
  | notYet
  deriving DecidableEq, Repr

/-- The two commands that wait for the entropy source (R57). -/
inductive SeedDraw where
  | pcgSeedrng | xoSeedrng
  deriving DecidableEq, Repr

/-- Why the machine stops with a fault: never. No rule of the spec stops the block; what a processor would fault on is a
non-OK status here, which is a next state (R100 to R107). The type has no constructor, so a fault outcome cannot be
built. -/
inductive Fault where
  deriving DecidableEq, Repr

/-- Why an instruction has no meaning. -/
inductive Refusal where
  /-- Raised by an arm of `exec` whose instruction is not modelled yet. Safe: the model stops. No arm raises it, since all
  20 commands are modelled. -/
  | notModelled (mnemonic : String)
  deriving DecidableEq, Repr

/-- The state of the model. -/
structure State where
  /-- The PCG engine. -/
  pcg : PcgEngine
  /-- The Xoshiro256** engine. -/
  xo : XoEngine
  /-- The parameters the block was built with (R6, R18); no step writes them. -/
  params : Params
  /-- The command in progress: a `SEEDRNG` whose outstanding request has not been answered (R62, R117). Every other command
  is one step (R30). -/
  inFlight : Option SeedDraw
  /-- What the host will do, first event first (R20, R121). -/
  hostEvents : List HostEvent
  /-- What the entropy source will do, first event first (R56). -/
  entropy : List EntropyEvent
  /-- The response frames given so far, in order (R37, R121). -/
  responses : List Response
  /-- The entropy requests made so far, in order: the byte count of each (R47). -/
  requests : List Nat
  /-- The model's own counter: how many words resets have left unspecified so far; it numbers the free values
  `Config.freeWord`. DESIGN CHOICE (notes/assumptions/1.md). -/
  freeIndex : Nat
  deriving DecidableEq, Repr

/-- The block right after reset, with nothing presented to it yet (R24, R113): both seeded flags are 0, and the state
words hold no specified value, which the model writes as the free values 0 to 5. -/
def State.reset : State where
  pcg := { state := Config.freeWord 0, inc := Config.freeWord 1, seeded := false }
  xo := { words := ⟨Config.freeWord 2, Config.freeWord 3, Config.freeWord 4, Config.freeWord 5⟩, seeded := false }
  params := Config.defaultParams
  inFlight := none
  hostEvents := []
  entropy := []
  responses := []
  requests := []
  freeIndex := 6

end Sys2Proof.Machine
end

