-- ==== Sys2Proof/Machine/Flags.lean ====
section
/-! DEFINITION. The flags of the block: the seeded flags and the status view that shows one of them (spec/10_state.md R17,
R18). There is no other flag: no carry, overflow, zero or condition code, and arithmetic writes none (R8, R17). -/

namespace Sys2Proof.Machine

/-- The status view of an engine (R18): bit 0 is the seeded flag, bits 7:1 are hardwired 0. -/
def statusView (seeded : Bool) : Byte := (BitVec.ofBool seeded).setWidth 8

end Sys2Proof.Machine
end

