-- ==== Sys2Proof/Machine/Ops.lean ====
section
/-! DEFINITION. The operations the commands share: responses, statuses (this hardware's exceptions), the checks that come
before a command's own rule, the writes to an engine, the entropy port, reset, and the fill loop. -/

namespace Sys2Proof.Machine

/-- What executing a command answers. -/
abbrev Result := Host.Outcome State Fault Refusal

/-- The code `ST` of each status (R100). -/
def Status.code (st : Status) : Byte :=
  match st with
  | .ok => 0x00#8
  | .entropyFail => 0x01#8
  | .illegalCmd => 0x02#8
  | .notSeeded => 0x03#8
  | .badState => 0x04#8

/-- A response frame as bytes: `ST` first, then `Q` (R37). -/
def Response.bytes (r : Response) : List Byte := r.status.code :: r.payload

/-- Give the host a response frame (R37, R51). -/
def respond (st : Status) (q : List Byte) (s : State) : State :=
  { s with responses := s.responses ++ [⟨st, q⟩] }

/-- End a command with status `OK` and response payload `q`, in the state `s` it has written (R10, R51). -/
def finish (q : List Byte) (s : State) : Result := .next (respond .ok q s)

/-- `raise <Status>(info)`: the block's one exception entry (R10, R51, R106). `s` is the state before the command: its
writes are cancelled, the response carries the status and the information, and nothing is saved anywhere. There is no
return from it (R107): the block accepts the next command as after an `OK`. -/
def raise (st : Status) (info : List Byte) (s : State) : Result := .next (respond st info s)

/-- The parameter gate of a command (R45): an absent command is an illegal frame. -/
def requirePresent (present : Bool) (s : State) (body : Result) : Result :=
  if present then body else raise .illegalCmd [] s

/-- Step 2 of R51: a command that needs an instance ends with `NOT_SEEDED` when the engine's flag is 0 (R103). -/
def requireSeeded (seeded : Bool) (s : State) (body : Result) : Result :=
  if seeded then body else raise .notSeeded [] s

/-- Store a whole new PCG instance, `w = (state, inc)`: both words and the flag, nothing of the old one (R15, R17). -/
def buildPcg (w : Word × Word) (s : State) : State :=
  { s with pcg := { state := w.1, inc := w.2, seeded := true } }

/-- Write `PCG.state`; `PCG.inc` and the flag stay (R12, R23). -/
def writePcgState (w : Word) (s : State) : State :=
  { s with pcg := { s.pcg with state := w } }

/-- Store a whole new Xoshiro256** instance: the four words and the flag (R15, R17). -/
def buildXo (w : XoWords) (s : State) : State :=
  { s with xo := { words := w, seeded := true } }

/-- Write the four words `XO.s0 .. XO.s3`; the flag stays (R13, R23). -/
def writeXoWords (w : XoWords) (s : State) : State :=
  { s with xo := { s.xo with words := w } }

/-- Make one request for `n` bytes on the entropy port (R47). -/
def request (n : Nat) (s : State) : State :=
  { s with requests := s.requests ++ [n] }

/-- A command stays in progress: its request is not answered yet; `rest` is what the entropy source does from here on. No
response is given and no state word is written (R57, R117). -/
def stall (d : SeedDraw) (rest : List EntropyEvent) (s : State) : Result :=
  .next { s with inFlight := some d, entropy := rest }

/-- A command that drew entropy is no longer in progress; `rest` is what the entropy source does after its last reply. -/
def drawn (rest : List EntropyEvent) (s : State) : State :=
  { s with inFlight := none, entropy := rest }

/-- The reset event (R112): both flags become 0, every state word becomes unspecified (fresh free values), a command in
progress is abandoned, and no response is produced. Parameters, ports and the record of what crossed them stay. -/
def resetBlock (s : State) : State :=
  { s with
    pcg := { state := Config.freeWord s.freeIndex, inc := Config.freeWord (s.freeIndex + 1), seeded := false }
    xo := { words := ⟨Config.freeWord (s.freeIndex + 2), Config.freeWord (s.freeIndex + 3),
                      Config.freeWord (s.freeIndex + 4), Config.freeWord (s.freeIndex + 5)⟩
            seeded := false }
    inFlight := none
    freeIndex := s.freeIndex + 6 }

/-- The loop of `Fill` (R54) for an engine state `σ` and its 64-bit draw: `draws` draws are left to make and `left` bytes
to give. Each draw gives the first `min(8, left)` bytes of the drawn word's little-endian image. -/
def fillLoop {σ : Type} (next64 : σ → Word × σ) (draws left : Nat) (e : σ) : List Byte × σ :=
  match draws with
  | 0 => ([], e)
  | k + 1 =>
    let d := next64 e
    let r := fillLoop next64 k (left - 8) d.2
    ((bytesLe64 d.1).take (min 8 left) ++ r.1, r.2)

/-- `Fill(E, n)` (R54): `n` bytes for `ceil(n / 8)` draws. -/
def fill {σ : Type} (next64 : σ → Word × σ) (n : Nat) (e : σ) : List Byte × σ :=
  fillLoop next64 ((n + 7) / 8) n e

end Sys2Proof.Machine
end

