-- ==== Sys2Proof/Machine/PcgEngine.lean ====
section
/-! DEFINITION. The pure functions of the PCG engine (spec/41_pcg.md R63 to R66, R71, R74, R75). All arithmetic is `u64`
wrap-around (R8, R67). -/

namespace Sys2Proof.Machine

/-- `PcgStep(s, inc) = s * M + inc` (R63). The factors stand in the other order, which is the same product, so that the
kernel does not count the literal `M` down when it compares two such terms. -/
def pcgStep (s inc : Word) : Word := Config.multiplier * s + inc

/-- `PcgOut(s)`, the output permutation (R64). -/
def pcgOut (s : Word) : Half :=
  let xored := trunc32 (((s >>> 18) ^^^ s) >>> 27)
  let rot := (s >>> 59).toNat
  rotr32 xored rot

/-- `PcgNext32(s, inc)` (R65): the output is that of the state before the update. -/
def pcgNext32 (s inc : Word) : Half × Word := (pcgOut s, pcgStep s inc)

/-- `PcgNext64(s, inc)` (R71): two 32-bit draws, the first of them the high half (`Config.pcgHighFirst`). -/
def pcgNext64 (s inc : Word) : Word × Word :=
  let first := pcgNext32 s inc
  let second := pcgNext32 first.2 inc
  let hi := if Config.pcgHighFirst then first.1 else second.1
  let lo := if Config.pcgHighFirst then second.1 else first.1
  ((zext64 hi <<< 32) ||| zext64 lo, second.2)

/-- `PcgConstruct(seed, seq)` (R66), answering `(state, inc)`: `inc` forced odd, and two throwaway draws. -/
def pcgConstruct (seed seq : Word) : Word × Word :=
  let inc := (seq <<< 1) ||| 1#64
  let state0 := 0#64
  let state1 := (pcgNext32 state0 inc).2
  let state2 := state1 + seed
  let state3 := (pcgNext32 state2 inc).2
  (state3, inc)

/-- `PcgConstruct` of the two little-endian words of 16 seed bytes (R68, R69). -/
def pcgConstructBytes (b : List Byte) : Word × Word := pcgConstruct (memRead64 b 0) (memRead64 b 8)

/-- `d` applications of the step: the normative meaning of `PcgAdvance(s, inc, d)` (R74). The commands run the loop below;
that the two are equal is a statement about this model. -/
def pcgSteps (s inc : Word) (d : Nat) : Word :=
  match d with
  | 0 => s
  | k + 1 => pcgStep (pcgSteps s inc k) inc

/-- The loop of R75, with `fuel` iterations at most; it answers `(acc_mult, acc_plus)`. -/
def pcgAdvanceLoop (fuel : Nat) (accMult accPlus curMult curPlus delta : Word) : Word × Word :=
  match fuel with
  | 0 => (accMult, accPlus)
  | k + 1 =>
    if delta = 0#64 then (accMult, accPlus)
    else
      let odd := delta.getLsbD 0
      let accMult' := if odd then accMult * curMult else accMult
      let accPlus' := if odd then accPlus * curMult + curPlus else accPlus
      pcgAdvanceLoop k accMult' accPlus' (curMult * curMult) ((curMult + 1#64) * curPlus) (delta >>> 1)

/-- `PcgAdvanceLoop(s, inc, delta)` (R75): at most 64 iterations, then the composed map applied once. -/
def pcgAdvance (s inc delta : Word) : Word :=
  let acc := pcgAdvanceLoop 64 1#64 0#64 Config.multiplier inc delta
  acc.1 * s + acc.2

/-- The 64-bit draw `PCG.Next64` that `Fill` uses (R54, R71), on `(state, inc)`; `inc` stays. -/
def pcgDraw64 (e : Word × Word) : Word × (Word × Word) :=
  let r := pcgNext64 e.1 e.2
  (r.1, (r.2, e.2))

end Sys2Proof.Machine
end

