-- ==== Sys2Proof/Machine/Pcg.lean ====
section
/-! DEFINITION. The ten PCG commands (spec/41_pcg.md R68 to R79), one meaning each. None of them reads or writes the XO
engine (R2, R23). -/

namespace Sys2Proof.Machine

/-- `PCG.SEED` (R68). -/
def execPcgSeed (seed seq : Word) (s : State) : Result :=
  finish [] (buildPcg (pcgConstruct seed seq) s)

/-- `PCG.SEEDRNG` (R69) once its one request is out: what the entropy source does next decides. `Ok(B)` builds the
instance from the first 16 bytes of the reply; `Fail(e)` ends the command with `ENTROPY_FAIL(e)` and no state write
(R57, R101); no answer yet leaves it in progress. -/
def awaitPcgSeed (s : State) : Result :=
  match s.entropy with
  | [] => stall .pcgSeedrng [] s
  | .notYet :: rest => stall .pcgSeedrng rest s
  | .fail e :: rest => raise .entropyFail (bytesLe32 e) (drawn rest s)
  | .ok b :: rest => finish [] (buildPcg (pcgConstructBytes (b.toList.take 16)) (drawn rest s))

/-- `PCG.SEEDRNG` (R69): one request for 16 bytes. -/
def execPcgSeedrng (s : State) : Result := awaitPcgSeed (request 16 s)

/-- `PCG.NEXT32` (R70). -/
def execPcgNext32 (s : State) : Result :=
  requireSeeded s.pcg.seeded s <|
    let d := pcgNext32 s.pcg.state s.pcg.inc
    finish (bytesLe32 d.1) (writePcgState d.2 s)

/-- `PCG.NEXT64` (R71). -/
def execPcgNext64 (s : State) : Result :=
  requireSeeded s.pcg.seeded s <|
    let d := pcgNext64 s.pcg.state s.pcg.inc
    finish (bytesLe64 d.1) (writePcgState d.2 s)

/-- What `PCG.FILL` and `PCG.TRYFILL` do (R54, R55, R72, R73): the engine's fill, which never fails. -/
def fillPcg (len : Word) (s : State) : Result :=
  requireSeeded s.pcg.seeded s <|
    let r := fill pcgDraw64 len.toNat (s.pcg.state, s.pcg.inc)
    finish r.1 (writePcgState r.2.1 s)

/-- `PCG.FILL` (R72). -/
def execPcgFill (len : Word) (s : State) : Result := fillPcg len s

/-- `PCG.TRYFILL` (R73). -/
def execPcgTryfill (len : Word) (s : State) : Result := fillPcg len s

/-- `PCG.ADVANCE` (R76). -/
def execPcgAdvance (delta : Word) (s : State) : Result :=
  requirePresent s.params.hasPcgAdvance s <|
    requireSeeded s.pcg.seeded s <|
      finish [] (writePcgState (pcgAdvance s.pcg.state s.pcg.inc delta) s)

/-- `PCG.SAVE` (R77). -/
def execPcgSave (s : State) : Result :=
  requirePresent s.params.hasPersist s <|
    requireSeeded s.pcg.seeded s <|
      finish (bytesLe64 s.pcg.state ++ bytesLe64 s.pcg.inc) s

/-- `PCG.LOAD` (R78): an even `inc` is refused with `BAD_STATE`; otherwise the words are stored as given. -/
def execPcgLoad (st ic : Word) (s : State) : Result :=
  requirePresent s.params.hasPersist s <|
    if ic.getLsbD 0 = false then raise .badState [] s
    else finish [] (buildPcg (st, ic) s)

/-- `PCG.STAT` (R79). -/
def execPcgStat (s : State) : Result := finish [statusView s.pcg.seeded] s

end Sys2Proof.Machine
end

