-- ==== Sys2Proof/Machine/XoEngine.lean ====
section
/-! DEFINITION. The pure functions of the Xoshiro256** engine (spec/42_xoshiro.md R81 to R83, R86, R87, R95). -/

namespace Sys2Proof.Machine

/-- The all-zero vector (R14). -/
def xoZero : XoWords := ⟨0#64, 0#64, 0#64, 0#64⟩

/-- Exclusive or, word by word (R85, R95). -/
def xoXor (a b : XoWords) : XoWords := ⟨a.s0 ^^^ b.s0, a.s1 ^^^ b.s1, a.s2 ^^^ b.s2, a.s3 ^^^ b.s3⟩

/-- `XoOut`, the output scrambler (R81): it reads `s1` only. -/
def xoOut (w : XoWords) : Word := rotl64 (w.s1 * 5#64) 7 * 9#64

/-- `XoStep`, the state update (R83), its assignments in the order written: steps 2 and 3 read the `s2` and `s3` just
updated. -/
def xoStep (w : XoWords) : XoWords :=
  let t := w.s1 <<< 17
  let s2 := w.s2 ^^^ w.s0
  let s3 := w.s3 ^^^ w.s1
  let s1 := w.s1 ^^^ s2
  let s0 := w.s0 ^^^ s3
  let s2 := s2 ^^^ t
  let s3 := rotl64 s3 45
  ⟨s0, s1, s2, s3⟩

/-- `XoNext64` (R82): the output is that of the state before the update. It is also the draw `XO.Next64` of `Fill`. -/
def xoNext64 (w : XoWords) : Word × XoWords := (xoOut w, xoStep w)

/-- `XoDecodeSeed(B)` (R86). -/
def xoDecodeSeed (b : List Byte) : XoWords :=
  ⟨memRead64 b 0, memRead64 b 8, memRead64 b 16, memRead64 b 24⟩

/-- `ZERO_SEED_SUBST` (R6, R88). -/
def zeroSeedSubst (p : Params) : XoWords := ⟨p.z0, p.z1, p.z2, p.z3⟩

/-- `XoConstruct` on the decoded words (R87): an all-zero seed is replaced, any other is kept unchanged. -/
def xoConstruct (p : Params) (w : XoWords) : XoWords := if w = xoZero then zeroSeedSubst p else w

/-- The bits of a word, least significant first (R95). -/
def bitsLowFirst (w : Word) : List Bool := (List.range 64).map fun b => w.getLsbD b

/-- One bit position of the jump (R95): accumulate the current state if the bit is set, then step unconditionally. -/
def xoJumpBit (r : XoWords × XoWords) (bit : Bool) : XoWords × XoWords :=
  (if bit then xoXor r.1 r.2 else r.1, xoStep r.2)

/-- `XoJump(S)` (R95): the constants in array order, the bits of each low to high; the accumulator is the result. -/
def xoJump (w : XoWords) : XoWords :=
  ((Config.jump.flatMap bitsLowFirst).foldl xoJumpBit (xoZero, w)).1

/-- `n` applications of `XoStep` (R95: the stride of a jump is `2^128` of them). -/
def xoSteps (w : XoWords) (n : Nat) : XoWords :=
  match n with
  | 0 => w
  | k + 1 => xoStep (xoSteps w k)

end Sys2Proof.Machine
end

