-- ==== Sys2Proof/Machine/Xo.lean ====
section
/-! DEFINITION. The ten XO commands (spec/42_xoshiro.md R89 to R94, R96 to R99), one meaning each. None of them reads or
writes the PCG engine (R2, R23). -/

namespace Sys2Proof.Machine

/-- `XO.SEED` (R89). -/
def execXoSeed (w0 w1 w2 w3 : Word) (s : State) : Result :=
  finish [] (buildXo (xoConstruct s.params ⟨w0, w1, w2, w3⟩) s)

/-- How the re-draw loop of `XO.SEEDRNG` stops: a good seed, a failure of the source, or no answer yet. -/
inductive XoDraw where
  | seed (w : XoWords)
  | failed (e : ErrorCode)
  | waiting
  deriving DecidableEq, Repr

/-- The loop of R90 over what the entropy source does, with one request out: how it stops, how many further requests it
made (one for each all-zero reply), and what the source does after that. `Fail(e)` at any iteration stops it at once. -/
def xoSeedLoop (events : List EntropyEvent) : XoDraw × Nat × List EntropyEvent :=
  match events with
  | [] => (.waiting, 0, [])
  | .notYet :: rest => (.waiting, 0, rest)
  | .fail e :: rest => (.failed e, 0, rest)
  | .ok b :: rest =>
    let w := xoDecodeSeed b.toList
    if w = xoZero then
      let r := xoSeedLoop rest
      (r.1, r.2.1 + 1, r.2.2)
    else (.seed w, 0, rest)

/-- `XO.SEEDRNG` (R90) once its first request is out: the loop runs as far as the entropy source answers. A good seed is
stored as drawn, never `ZERO_SEED_SUBST`; a failure ends the command with no state write; while the source gives no
answer, or only zeros, the command stays in progress (R117). -/
def awaitXoSeed (s : State) : Result :=
  let r := xoSeedLoop s.entropy
  let s1 := { s with requests := s.requests ++ List.replicate r.2.1 32 }
  match r.1 with
  | .waiting => stall .xoSeedrng r.2.2 s1
  | .failed e => raise .entropyFail (bytesLe32 e) (drawn r.2.2 s1)
  | .seed w => finish [] (buildXo w (drawn r.2.2 s1))

/-- `XO.SEEDRNG` (R90): the first request for 32 bytes. -/
def execXoSeedrng (s : State) : Result := awaitXoSeed (request 32 s)

/-- `XO.NEXT32` (R92): the low 32 bits of one 64-bit draw. -/
def execXoNext32 (s : State) : Result :=
  requireSeeded s.xo.seeded s <|
    let d := xoNext64 s.xo.words
    finish (bytesLe32 (trunc32 d.1)) (writeXoWords d.2 s)

/-- `XO.NEXT64` (R91). -/
def execXoNext64 (s : State) : Result :=
  requireSeeded s.xo.seeded s <|
    let d := xoNext64 s.xo.words
    finish (bytesLe64 d.1) (writeXoWords d.2 s)

/-- What `XO.FILL` and `XO.TRYFILL` do (R54, R55, R93, R94): the engine's fill, which never fails. -/
def fillXo (len : Word) (s : State) : Result :=
  requireSeeded s.xo.seeded s <|
    let r := fill xoNext64 len.toNat s.xo.words
    finish r.1 (writeXoWords r.2 s)

/-- `XO.FILL` (R93). -/
def execXoFill (len : Word) (s : State) : Result := fillXo len s

/-- `XO.TRYFILL` (R94). -/
def execXoTryfill (len : Word) (s : State) : Result := fillXo len s

/-- `XO.JUMP` (R96). -/
def execXoJump (s : State) : Result :=
  requireSeeded s.xo.seeded s <|
    finish [] (writeXoWords (xoJump s.xo.words) s)

/-- `XO.SAVE` (R97). -/
def execXoSave (s : State) : Result :=
  requirePresent s.params.hasPersist s <|
    requireSeeded s.xo.seeded s <|
      finish (bytesLe64 s.xo.words.s0 ++ bytesLe64 s.xo.words.s1 ++ bytesLe64 s.xo.words.s2 ++ bytesLe64 s.xo.words.s3) s

/-- `XO.LOAD` (R98): the all-zero image is refused with `BAD_STATE`; otherwise the words are stored as given. -/
def execXoLoad (w0 w1 w2 w3 : Word) (s : State) : Result :=
  requirePresent s.params.hasPersist s <|
    if (⟨w0, w1, w2, w3⟩ : XoWords) = xoZero then raise .badState [] s
    else finish [] (buildXo ⟨w0, w1, w2, w3⟩ s)

/-- `XO.STAT` (R99). -/
def execXoStat (s : State) : Result := finish [statusView s.xo.seeded] s

end Sys2Proof.Machine
end

