-- ==== Sys2Proof/Machine/Dispatch.lean ====
section
/-! DEFINITION. One arm per constructor of `Instr`, each one direct call of its meaning. -/

namespace Sys2Proof.Machine

/-- Step 3 of R51, with the gate and seeded checks each meaning makes first: execute a decoded command. -/
def exec (i : Instr) (s : State) : Host.Outcome State Fault Refusal :=
  match i with
  | .pcgSeed seed seq => Sys2Proof.Machine.execPcgSeed seed seq s
  | .pcgSeedrng => Sys2Proof.Machine.execPcgSeedrng s
  | .pcgNext32 => Sys2Proof.Machine.execPcgNext32 s
  | .pcgNext64 => Sys2Proof.Machine.execPcgNext64 s
  | .pcgFill len => Sys2Proof.Machine.execPcgFill len s
  | .pcgTryfill len => Sys2Proof.Machine.execPcgTryfill len s
  | .pcgAdvance delta => Sys2Proof.Machine.execPcgAdvance delta s
  | .pcgSave => Sys2Proof.Machine.execPcgSave s
  | .pcgLoad st ic => Sys2Proof.Machine.execPcgLoad st ic s
  | .pcgStat => Sys2Proof.Machine.execPcgStat s
  | .xoSeed w0 w1 w2 w3 => Sys2Proof.Machine.execXoSeed w0 w1 w2 w3 s
  | .xoSeedrng => Sys2Proof.Machine.execXoSeedrng s
  | .xoNext32 => Sys2Proof.Machine.execXoNext32 s
  | .xoNext64 => Sys2Proof.Machine.execXoNext64 s
  | .xoFill len => Sys2Proof.Machine.execXoFill len s
  | .xoTryfill len => Sys2Proof.Machine.execXoTryfill len s
  | .xoJump => Sys2Proof.Machine.execXoJump s
  | .xoSave => Sys2Proof.Machine.execXoSave s
  | .xoLoad w0 w1 w2 w3 => Sys2Proof.Machine.execXoLoad w0 w1 w2 w3 s
  | .xoStat => Sys2Proof.Machine.execXoStat s

end Sys2Proof.Machine
end

