-- ==== Sys2Proof/Machine/Port.lean ====
section
/-! DEFINITION. What the block does next: it has no program counter (spec/10_state.md R20); the host's events, taken in
order, are its only sequencing, and a command in progress goes on before the next frame is accepted (R32, R115). -/

namespace Sys2Proof.Machine

/-- What the next step is about, with the state it starts from (the host's event taken off, where one is). -/
inductive Move where
  /-- The reset input is driven (R112). -/
  | reset (s : State)
  /-- A `SEEDRNG` in progress goes on waiting for the entropy source (R57, R117). -/
  | resume (d : SeedDraw) (s : State)
  /-- A frame that decodes to a command (R50, R51). -/
  | command (i : Instr) (s : State)
  /-- A frame that decodes to no command, and why (R44). -/
  | illegal (e : Illegal) (s : State)
  /-- No event: between commands the block is idle and keeps all state (R110, R121). -/
  | idle (s : State)
  deriving DecidableEq, Repr

/-- The next frame, with the block idle: decode it in this build (R50, step 1 of R51). -/
def acceptFrame (f : Frame) (s : State) : Move :=
  match decode s.params f with
  | .ok i => .command i s
  | .error e => .illegal e s

/-- The next move. Reset lands at once, also on a command in progress (R112); a frame is accepted only when no command is
in progress (R32, R115), and is held off until then. -/
def nextMove (s : State) : Move :=
  match s.hostEvents, s.inFlight with
  | .reset :: rest, _ => .reset { s with hostEvents := rest }
  | .frame _ :: _, some d => .resume d s
  | [], some d => .resume d s
  | .frame f :: rest, none => acceptFrame f { s with hostEvents := rest }
  | [], none => .idle s

/-- A `SEEDRNG` in progress takes what the entropy source has done since (R57, R90). -/
def resume (d : SeedDraw) (s : State) : Result :=
  match d with
  | .pcgSeedrng => awaitPcgSeed s
  | .xoSeedrng => awaitXoSeed s

/-- An illegal frame: status `ILLEGAL_CMD`, nothing executed, no entropy requested, no state written (R44, R102). -/
def answerIllegal (s : State) : Result := raise .illegalCmd [] s

/-- The event list with a frame put first. -/
def presentFrame (f : Frame) (s : State) : State :=
  { s with hostEvents := .frame f :: s.hostEvents, inFlight := none }

end Sys2Proof.Machine
end

