-- ==== Sys2Proof/Machine/Step.lean ====
section
/-! DEFINITION. One step of the block (spec/40_generator_interface.md R51; spec/70_reset_and_hazards.md R112): a whole
command, the reset event, or one more wait of a command in progress. -/

namespace Sys2Proof.Machine

/-- One step. -/
def step (s : State) : Host.Outcome State Fault Refusal :=
  match nextMove s with
  | .reset s' => .next (resetBlock s')
  | .resume d s' => resume d s'
  | .command i s' => exec i s'
  | .illegal _ s' => answerIllegal s'
  | .idle s' => .next s'

/-- `s` with the frame of an opcode-table word as the host's next event and no command in progress, so that the very next
step runs it. -/
def State.withFetchWord (s : State) (nbits w : Nat) : State := presentFrame (tableFrame nbits w) s

end Sys2Proof.Machine
end

