-- ==== Sys2Proof/Safety.lean ====
section
/-! DEFINITION. The terms claims are stated in: the invariants of spec/10_state.md R12 and R14, the tables of the spec that
say which command belongs to which engine and what it needs or answers, and runs of commands. -/

namespace Sys2Proof

/-- The constraints R88 puts on `ZERO_SEED_SUBST`: a value that breaks one is not an admissible parameter. -/
abbrev Params.Admissible (p : Params) : Prop :=
  p.z1 ≠ 0#64 ∧ p.z0 ^^^ p.z1 ^^^ p.z2 ≠ 0#64 ∧ p.z0 ≠ p.z2

/-- The command is addressed to the PCG engine (`ENG = 0`, R39); otherwise to the XO engine. -/
def Command.onPcg (c : Command) : Bool :=
  match c with
  | .pcgSeed | .pcgSeedrng | .pcgNext32 | .pcgNext64 | .pcgFill | .pcgTryfill | .pcgAdvance | .pcgSave | .pcgLoad
  | .pcgStat => true
  | .xoSeed | .xoSeedrng | .xoNext32 | .xoNext64 | .xoFill | .xoTryfill | .xoJump | .xoSave | .xoLoad | .xoStat => false

/-- The command needs an instance (R17, R51): `NEXT32`, `NEXT64`, `FILL`, `TRYFILL`, `ADVANCE`, `JUMP`, `SAVE`. -/
def Command.needsInstance (c : Command) : Bool :=
  match c with
  | .pcgNext32 | .pcgNext64 | .pcgFill | .pcgTryfill | .pcgAdvance | .pcgSave => true
  | .xoNext32 | .xoNext64 | .xoFill | .xoTryfill | .xoJump | .xoSave => true
  | .pcgSeed | .pcgSeedrng | .pcgLoad | .pcgStat | .xoSeed | .xoSeedrng | .xoLoad | .xoStat => false

/-- The command constructs a new instance (R15): `SEED`, `SEEDRNG`, `LOAD`. -/
def Command.constructs (c : Command) : Bool :=
  match c with
  | .pcgSeed | .pcgSeedrng | .pcgLoad | .xoSeed | .xoSeedrng | .xoLoad => true
  | .pcgNext32 | .pcgNext64 | .pcgFill | .pcgTryfill | .pcgAdvance | .pcgSave | .pcgStat => false
  | .xoNext32 | .xoNext64 | .xoFill | .xoTryfill | .xoJump | .xoSave | .xoStat => false

/-- The command draws from the entropy source (R47): `SEEDRNG`. -/
def Command.drawsEntropy (c : Command) : Bool := c == .pcgSeedrng || c == .xoSeedrng

namespace Machine

/-- The command's engine holds an instance (R51, step 2). -/
def State.seededFor (s : State) (c : Command) : Bool := if c.onPcg then s.pcg.seeded else s.xo.seeded

/-- R12: whenever `PCG.seeded = 1`, bit 0 of `PCG.inc` is 1. -/
abbrev State.PcgIncOdd (s : State) : Prop := s.pcg.seeded = true → s.pcg.inc.getLsbD 0 = true

/-- R14: whenever `XO.seeded = 1`, the four words are not all zero. -/
abbrev State.XoNonzero (s : State) : Prop := s.xo.seeded = true → s.xo.words ≠ xoZero

/-- The invariant of the machine: admissible parameters (R88), R12 and R14. -/
abbrev State.Inv (s : State) : Prop := s.params.Admissible ∧ s.PcgIncOdd ∧ s.XoNonzero

/-- The block is idle and the host presents the frame `f`; `rest` is what the host does after it (R115). -/
abbrev State.Presents (s : State) (f : Frame) (rest : List HostEvent) : Prop :=
  s.inFlight = none ∧ s.hostEvents = .frame f :: rest

/-- A `LOAD` whose image breaks an invariant (R100, R104): an even `inc`, or four zero words. -/
def badImage (i : Instr) : Bool :=
  match i with
  | .pcgLoad _ ic => ic.toNat % 2 == 0
  | .xoLoad w0 w1 w2 w3 => w0 == 0#64 && w1 == 0#64 && w2 == 0#64 && w3 == 0#64
  | .pcgSeed _ _ | .pcgSeedrng | .pcgNext32 | .pcgNext64 | .pcgFill _ | .pcgTryfill _ | .pcgAdvance _ | .pcgSave
  | .pcgStat => false
  | .xoSeed _ _ _ _ | .xoSeedrng | .xoNext32 | .xoNext64 | .xoFill _ | .xoTryfill _ | .xoJump | .xoSave | .xoStat => false

/-- The payload length of R40 by command word, written from the rule's table; meant for the legal command words. -/
def r40Length (cmd : Byte) : Nat :=
  if cmd ∈ [0x00#8, 0x09#8] then 16
  else if cmd ∈ [0x10#8, 0x19#8] then 32
  else if cmd ∈ [0x04#8, 0x05#8, 0x06#8, 0x14#8, 0x15#8] then 8
  else 0

/-- The response payload length of R42 for a command that ends with `OK`. -/
def r42Length (i : Instr) : Nat :=
  match i with
  | .pcgSeed _ _ | .pcgSeedrng | .pcgAdvance _ | .pcgLoad _ _ => 0
  | .xoSeed _ _ _ _ | .xoSeedrng | .xoJump | .xoLoad _ _ _ _ => 0
  | .pcgNext32 | .xoNext32 => 4
  | .pcgNext64 | .xoNext64 => 8
  | .pcgFill len | .pcgTryfill len | .xoFill len | .xoTryfill len => len.toNat
  | .pcgSave => 16
  | .xoSave => 32
  | .pcgStat | .xoStat => 1

/-- `m` successive 64-bit draws `E.Next64` from the engine state `e`: the drawn words and the state left (R60). -/
def drawWords {σ : Type} (next64 : σ → Word × σ) (m : Nat) (e : σ) : List Word × σ :=
  match m with
  | 0 => ([], e)
  | k + 1 => ((next64 e).1 :: (drawWords next64 k (next64 e).2).1, (drawWords next64 k (next64 e).2).2)

/-- The command a waiting draw belongs to (R57). -/
def SeedDraw.command (d : SeedDraw) : Command :=
  match d with
  | .pcgSeedrng => .pcgSeedrng
  | .xoSeedrng => .xoSeedrng

/-- The command `c` is still in progress: it has given no response yet. -/
def State.inProgress (s : State) (c : Command) : Bool := s.inFlight.map SeedDraw.command == some c

/-- Go on from a next state; a fault or a refusal ends the run. -/
def andThen (r : Result) (f : State → Result) : Result :=
  match r with
  | .next t => f t
  | .fault e => .fault e
  | .refused e => .refused e

/-- The host waits for the response of the command `c` (R115): while it is in progress it goes on with what the entropy
source does, at most `fuel` times. -/
def waitFor (fuel : Nat) (c : Command) (s : State) : Result :=
  match fuel, s.inFlight with
  | k + 1, some d => if d.command = c then andThen (resume d s) (waitFor k c) else .next s
  | _, _ => .next s

/-- A run (R121): the commands in order, each after the response of the one before (R115). Each wait of a `SEEDRNG` takes at
least one of the events the entropy source has left, so waiting as often as there are events uses them up; a command that
is in progress after that never ends, and the run has no further responses: the commands behind it are not executed. -/
def execAll (is : List Instr) (s : State) : Result :=
  match is with
  | [] => .next s
  | i :: rest =>
    andThen (exec i s) fun t =>
      andThen (waitFor t.entropy.length i.command t) fun u =>
        if u.inProgress i.command then .next u else execAll rest u

/-- Two states that differ at most in the state words of engines that are not seeded (R113). -/
def SameWhereSeeded (a b : State) : Prop :=
  b = { a with pcg := b.pcg, xo := b.xo } ∧
  a.pcg.seeded = b.pcg.seeded ∧ (a.pcg.seeded = true → a.pcg = b.pcg) ∧
  a.xo.seeded = b.xo.seeded ∧ (a.xo.seeded = true → a.xo = b.xo)

end Machine
end Sys2Proof
end

