-- ==== Sys2Proof/Certificates/Slice0/Obligations.lean ====
section
/-! DEFINITION. The statements for the provers, written from the numbered rules of spec/. Each says which rule it
formalises. "`exec i s = .next (respond st q { s with … })`" states the result, the completion and the frame at once: every
field not named keeps its value. The block has no memory (R25), so there is no frame over memory to state. -/

open Sys2Proof Sys2Proof.Machine

/-! ## Frames and decoding -/

/-- R39, R40, R41, R50: decoding the frame of a command the build has gives that command, with every operand. -/
def Obligations.DecodeReadsEveryEncoding : Prop :=
  ∀ (p : Params) (i : Instr), i.wf p = true → decode p (encode i) = .ok i

/-- R46, R50: a frame that decodes is the encoding of the command it decodes to, and the build has that command. -/
def Obligations.DecodedFrameIsItsEncoding : Prop :=
  ∀ (p : Params) (f : Frame) (i : Instr), decode p f = .ok i → i.wf p = true ∧ encode i = f

/-- R44, R102: a frame is illegal exactly when one of the clauses (a) to (e) holds; it answers `ILLEGAL_CMD` with an empty
payload and changes nothing; with all parameters true the 20 legal command words are those listed. -/
def Obligations.IllegalFramesAndTheirAnswer : Prop :=
  (∀ (p : Params) (f : Frame), (∃ e, decode p f = .error e) ↔
    (f.cmd.toNat / 32 ≠ 0 ∨ 0xB ≤ f.cmd.toNat % 16 ∨ f.cmd = 0x07#8 ∨ f.cmd = 0x16#8 ∨
      (p.hasPcgAdvance = false ∧ f.cmd = 0x06#8) ∨
      (p.hasPersist = false ∧ f.cmd ∈ [0x08#8, 0x09#8, 0x18#8, 0x19#8]) ∨
      f.payload.length ≠ r40Length f.cmd)) ∧
  (∀ (s : State) (f : Frame) (rest : List HostEvent) (e : Illegal), s.Presents f rest → decode s.params f = .error e →
    step s = .next (respond .illegalCmd [] { s with hostEvents := rest })) ∧
  (∀ p : Params, p.hasPcgAdvance = true → p.hasPersist = true →
    ((List.range 256).filter fun n =>
      match commandOf (BitVec.ofNat 8 n) with
      | .ok c => c.present p
      | .error _ => false) =
      [0x00, 0x01, 0x02, 0x03, 0x04, 0x05, 0x06, 0x08, 0x09, 0x0A,
       0x10, 0x11, 0x12, 0x13, 0x14, 0x15, 0x17, 0x18, 0x19, 0x1A])

/-- R45: the gated command words are illegal in a build without the unit, and no step changes a parameter. -/
def Obligations.GatesAreFixed : Prop :=
  (∀ (p : Params) (f : Frame),
    (p.hasPcgAdvance = false ∧ f.cmd = 0x06#8) ∨
      (p.hasPersist = false ∧ f.cmd ∈ [0x08#8, 0x09#8, 0x18#8, 0x19#8]) →
    decode p f = .error .gatedOff) ∧
  (∀ s t : State, step s = .next t → t.params = s.params)

/-- R37, R39, R40: frames written out from the spec's tables and test vectors decode to the commands they stand for. -/
def Obligations.SpecFramesDecode : Prop :=
  ∀ x ∈ ([
    (⟨0x00, [0x2a, 0, 0, 0, 0, 0, 0, 0, 0x36, 0, 0, 0, 0, 0, 0, 0]⟩, .pcgSeed 42 54),
    (⟨0x06, [3, 0, 0, 0, 0, 0, 0, 0]⟩, .pcgAdvance 3),
    (⟨0x04, [0x0b, 0, 0, 0, 0, 0, 0, 0]⟩, .pcgFill 11),
    (⟨0x13, []⟩, .xoNext64),
    (⟨0x17, []⟩, .xoJump),
    (⟨0x19, [1, 0, 0, 0, 0, 0, 0, 0, 2, 0, 0, 0, 0, 0, 0, 0, 3, 0, 0, 0, 0, 0, 0, 0, 4, 0, 0, 0, 0, 0, 0, 0x80]⟩,
      .xoLoad 1 2 3 0x8000000000000004)] : List (Frame × Instr)),
    decode Config.defaultParams x.1 = .ok x.2

/-! ## The step, its statuses, reset -/

/-- R51: with the block idle and a frame presented that decodes to a well-formed command, the step is `exec` of it, on the
state with that frame taken off the host's events. -/
def Obligations.StepRunsDecodedCommand : Prop :=
  ∀ (s : State) (f : Frame) (rest : List HostEvent) (i : Instr),
    s.Presents f rest → decode s.params f = .ok i → step s = exec i { s with hostEvents := rest }

/-- R112, R17: the reset event clears both flags, abandons a command in progress and produces no response; nothing else
clears a flag; and with no event the block keeps its state. What the state words hold after reset is not stated. That the
entropy events not yet taken survive the reset (`t.entropy = s.entropy`), and so answer the next request, is the model's
choice, on which R112 is silent (notes/assumptions/8.md); that the records `responses` and `requests` are kept is the model's
too (notes/assumptions/9.md), and so is the idle step of the last clause (notes/assumptions/3.md). -/
def Obligations.ResetEvent : Prop :=
  (∀ (s : State) (rest : List HostEvent), s.hostEvents = .reset :: rest →
    ∃ t, step s = .next t ∧ t.pcg.seeded = false ∧ t.xo.seeded = false ∧ t.inFlight = none ∧
      t.responses = s.responses ∧ t.requests = s.requests ∧ t.params = s.params ∧ t.entropy = s.entropy ∧
      t.hostEvents = rest) ∧
  (∀ s t : State, (∀ rest, s.hostEvents ≠ .reset :: rest) → step s = .next t →
    (s.pcg.seeded = true → t.pcg.seeded = true) ∧ (s.xo.seeded = true → t.xo.seeded = true)) ∧
  (∀ s : State, s.inFlight = none → s.hostEvents = [] → step s = .next s)

/-- R32, R115: while a command is in progress no frame is accepted; the command stays in progress without a response, or
ends with exactly one. -/
def Obligations.BusyBlockAcceptsNoFrame : Prop :=
  ∀ (s t : State) (d : SeedDraw) (f : Frame) (rest : List HostEvent),
    s.inFlight = some d → s.hostEvents = .frame f :: rest → step s = .next t →
    t.hostEvents = s.hostEvents ∧
      ((t.inFlight = some d ∧ t.responses = s.responses) ∨
       (t.inFlight = none ∧ ∃ r, t.responses = s.responses ++ [r]))

/-- R37, R51, R58, R62: the step on a presented frame always answers a next state; the frame gets exactly one response, or it
is a `SEEDRNG` that is still in progress and has none. -/
def Obligations.FrameGetsOneResponse : Prop :=
  ∀ (s : State) (f : Frame) (rest : List HostEvent), s.Presents f rest →
    ∃ t, step s = .next t ∧ t.hostEvents = rest ∧
      ((t.inFlight = none ∧ ∃ r, t.responses = s.responses ++ [r]) ∨
       (t.responses = s.responses ∧
        ((t.inFlight = some .pcgSeedrng ∧ decode s.params f = .ok .pcgSeedrng) ∨
         (t.inFlight = some .xoSeedrng ∧ decode s.params f = .ok .xoSeedrng))))

/-- R103: a command that needs an instance, on an engine that holds none, answers `NOT_SEEDED` and does nothing else. -/
def Obligations.UnseededEngineAnswersNotSeeded : Prop :=
  ∀ (i : Instr) (s : State), i.wf s.params = true → i.command.needsInstance = true → s.seededFor i.command = false →
    exec i s = .next (respond .notSeeded [] s)

/-- R106: a step that answers a non-OK status, whatever it is about, leaves every state word, both flags, the parameters and
the free values as they were, and the response carries nothing but the information of R100: nothing, or the failure code
the entropy source gave. -/
def Obligations.NonOkStatusCancelsEveryWrite : Prop :=
  ∀ (s t : State) (r : Response),
    step s = .next t → t.responses = s.responses ++ [r] → r.status ≠ .ok →
    t.pcg = s.pcg ∧ t.xo = s.xo ∧ t.params = s.params ∧ t.freeIndex = s.freeIndex ∧ t.inFlight = none ∧
      ((r.status ≠ .entropyFail ∧ r.payload = [] ∧ t.entropy = s.entropy ∧ t.requests = s.requests) ∨
       (r.status = .entropyFail ∧ ∃ e, .fail e ∈ s.entropy ∧ r.payload = bytesLe32 e))

/-- R100, R105: the codes of the statuses, and which one a presented frame gets: `ILLEGAL_CMD` before `NOT_SEEDED` before the
command's own checks; `BAD_STATE` exactly for a bad image, `ENTROPY_FAIL` from `SEEDRNG` only. -/
def Obligations.StatusPriority : Prop :=
  [Status.ok, .entropyFail, .illegalCmd, .notSeeded, .badState].map Status.code = [0x00#8, 0x01#8, 0x02#8, 0x03#8, 0x04#8] ∧
  ∀ (s t : State) (f : Frame) (rest : List HostEvent) (r : Response),
    s.Presents f rest → step s = .next t → t.responses = s.responses ++ [r] →
    match decode s.params f with
    | .error _ => r.status = .illegalCmd
    | .ok i =>
      if i.command.needsInstance = true ∧ s.seededFor i.command = false then r.status = .notSeeded
      else if badImage i = true then r.status = .badState
      else r.status = .ok ∨ (r.status = .entropyFail ∧ i.command.drawsEntropy = true)

/-- R29, R42, R43: the length of the response payload of every command, by the status it ends with. -/
def Obligations.ResponsePayloadLengths : Prop :=
  ∀ (i : Instr) (s t : State) (r : Response), exec i s = .next t → t.responses = s.responses ++ [r] →
    r.payload.length =
      match r.status with
      | .ok => r42Length i
      | .entropyFail => 4
      | .illegalCmd | .notSeeded | .badState => 0

/-- R24, R113: right after reset both flags are 0, nothing is in progress, both `STAT`s answer 0x00, and every command of
the build that needs an instance answers `NOT_SEEDED`. The parameters there are the model's choice
(notes/assumptions/2.md). -/
def Obligations.ResetLeavesBothUnseeded : Prop :=
  State.reset.pcg.seeded = false ∧ State.reset.xo.seeded = false ∧ State.reset.inFlight = none ∧
  exec .pcgStat State.reset = .next (respond .ok [0x00#8] State.reset) ∧
  exec .xoStat State.reset = .next (respond .ok [0x00#8] State.reset) ∧
  ∀ i : Instr, i.wf State.reset.params = true → i.command.needsInstance = true →
    exec i State.reset = .next (respond .notSeeded [] State.reset)

/-! ## The PCG engine -/

/-- R66, R68: the frame of `PCG.SEED` is read as two little-endian words, `state_word` first, and the command builds the
instance of the closed form of R66, on a seeded or an unseeded engine. -/
def Obligations.PcgSeedBuildsClosedForm : Prop :=
  (∀ (p : Params) (b : List Byte), b.length = 16 →
    decode p ⟨0x00, b⟩ = .ok (.pcgSeed (le64 (b.take 8)) (le64 (b.drop 8)))) ∧
  (∀ (seed seq : Word) (s : State),
    exec (.pcgSeed seed seq) s = .next (respond .ok [] { s with
      pcg := { inc := 2#64 * seq + 1#64
               state := 6364136223846793005#64 * ((2#64 * seq + 1#64) + seed) + (2#64 * seq + 1#64)
               seeded := true } }))

/-- R69, R57: `PCG.SEEDRNG` makes one request for 16 bytes; any 16 bytes build the instance `PCG.SEED` would build of them, a
failure ends the command with its code and no state write. The last two clauses rest on how the model holds a source that
has not answered (notes/assumptions/4.md): the command stays in progress. -/
def Obligations.PcgSeedrngAnswers : Prop :=
  (∀ (s : State) (b : EntropyBytes) (rest : List EntropyEvent), s.entropy = .ok b :: rest →
    exec .pcgSeedrng s = .next (respond .ok [] { s with
      requests := s.requests ++ [16], entropy := rest, inFlight := none
      pcg := { inc := 2#64 * le64 ((b.toList.drop 8).take 8) + 1#64
               state := 6364136223846793005#64 *
                 ((2#64 * le64 ((b.toList.drop 8).take 8) + 1#64) + le64 (b.toList.take 8)) +
                 (2#64 * le64 ((b.toList.drop 8).take 8) + 1#64)
               seeded := true } })) ∧
  (∀ (s : State) (e : ErrorCode) (rest : List EntropyEvent), s.entropy = .fail e :: rest →
    exec .pcgSeedrng s = .next (respond .entropyFail (bytesLe32 e) { s with
      requests := s.requests ++ [16], entropy := rest, inFlight := none })) ∧
  (∀ s : State, s.entropy = [] →
    exec .pcgSeedrng s = .next { s with requests := s.requests ++ [16], inFlight := some .pcgSeedrng }) ∧
  (∀ (s : State) (rest : List EntropyEvent), s.entropy = .notYet :: rest →
    exec .pcgSeedrng s = .next { s with
      requests := s.requests ++ [16], entropy := rest, inFlight := some .pcgSeedrng })

/-- R57, R62: a `SEEDRNG` in progress goes on as if it had just been accepted, but its outstanding request is not made
again. -/
def Obligations.WaitingCommandTakesItsReply : Prop :=
  (∀ s u : State, s.inFlight = some .pcgSeedrng → (∀ rest, s.hostEvents ≠ .reset :: rest) →
    exec .pcgSeedrng s = .next u → step s = .next { u with requests := s.requests }) ∧
  (∀ s u : State, s.inFlight = some .xoSeedrng → (∀ rest, s.hostEvents ≠ .reset :: rest) →
    exec .xoSeedrng s = .next u →
    step s = .next { u with requests := s.requests ++ u.requests.drop (s.requests.length + 1) })

/-- R70, with R63, R64, R65: one 32-bit draw. The output is that of the state before the update, in little-endian bytes;
an unseeded engine answers `NOT_SEEDED`. -/
def Obligations.PcgNext32Draw : Prop :=
  (∀ p : Params, decode p ⟨0x02, []⟩ = .ok .pcgNext32) ∧
  ∀ s : State,
    (s.pcg.seeded = true →
      ∃ r : Half,
        r = (BitVec.setWidth 32 (((s.pcg.state >>> 18) ^^^ s.pcg.state) >>> 27)).rotateRight (s.pcg.state.toNat / 2 ^ 59) ∧
        exec .pcgNext32 s = .next (respond .ok
          [r.extractLsb' 0 8, r.extractLsb' 8 8, r.extractLsb' 16 8, r.extractLsb' 24 8]
          { s with pcg := { s.pcg with state := 6364136223846793005#64 * s.pcg.state + s.pcg.inc } })) ∧
    (s.pcg.seeded = false → exec .pcgNext32 s = .next (respond .notSeeded [] s))

/-- R71: `PCG.NEXT64` leaves the engine two `PCG.NEXT32` leave, and its response is theirs, the second draw's bytes first
(the first draw is the high half: the decided parameter `PCG_U64_HIGH_FIRST`). -/
def Obligations.PcgNext64IsTwoDraws : Prop :=
  (∀ p : Params, decode p ⟨0x03, []⟩ = .ok .pcgNext64) ∧
  ∀ s : State,
    (s.pcg.seeded = true →
      ∃ (t1 t2 : State) (q1 q2 : List Byte),
        exec .pcgNext32 s = .next t1 ∧ t1.responses = s.responses ++ [⟨.ok, q1⟩] ∧
        exec .pcgNext32 t1 = .next t2 ∧ t2.responses = t1.responses ++ [⟨.ok, q2⟩] ∧
        exec .pcgNext64 s = .next (respond .ok (q2 ++ q1) { s with pcg := t2.pcg })) ∧
    (s.pcg.seeded = false → exec .pcgNext64 s = .next (respond .notSeeded [] s))

/-- R72, R73, with R54, R55: `PCG.FILL` and `PCG.TRYFILL` give the first `LEN` bytes of the little-endian images of
`ceil(LEN / 8)` draws, cost two steps a draw, and end with `OK` for every `LEN` on a seeded engine. -/
def Obligations.PcgFillBytes : Prop :=
  (∀ (p : Params) (b : List Byte), b.length = 8 →
    decode p ⟨0x04, b⟩ = .ok (.pcgFill (le64 b)) ∧ decode p ⟨0x05, b⟩ = .ok (.pcgTryfill (le64 b))) ∧
  ∀ (len : Word) (s : State), ∀ i ∈ [Instr.pcgFill len, Instr.pcgTryfill len],
    (s.pcg.seeded = true →
      exec i s = .next (respond .ok
        (((drawWords pcgDraw64 ((len.toNat + 7) / 8) (s.pcg.state, s.pcg.inc)).1.flatMap bytesLe64).take len.toNat)
        { s with pcg := { s.pcg with state := pcgSteps s.pcg.state s.pcg.inc (2 * ((len.toNat + 7) / 8)) } })) ∧
    (s.pcg.seeded = false → exec i s = .next (respond .notSeeded [] s))

/-- R60: a fill of `8m` bytes is the concatenation of the images of `m` successive draws and leaves the state they leave; a
fill of `n` bytes is the first `n` bytes of the fill of `8 * ceil(n / 8)` and leaves the same state. For any engine. -/
def Obligations.FillConsistency : Prop :=
  ∀ (σ : Type) (next64 : σ → Word × σ) (e : σ),
    (∀ m : Nat, fill next64 (8 * m) e = ((drawWords next64 m e).1.flatMap bytesLe64, (drawWords next64 m e).2)) ∧
    (∀ n : Nat, fill next64 n e =
      ((fill next64 (8 * ((n + 7) / 8)) e).1.take n, (fill next64 (8 * ((n + 7) / 8)) e).2))

/-- R74, R76: `PCG.ADVANCE` leaves the state that exactly `delta` single steps leave, for every 64-bit `delta`; the loop the
machine runs (R75) is a refinement of that meaning. Gate and seeded check as in R76. -/
def Obligations.PcgAdvanceIsDeltaSteps : Prop :=
  (∀ (p : Params) (b : List Byte), p.hasPcgAdvance = true → b.length = 8 →
    decode p ⟨0x06, b⟩ = .ok (.pcgAdvance (le64 b))) ∧
  ∀ (delta : Word) (s : State),
    (s.params.hasPcgAdvance = true → s.pcg.seeded = true →
      exec (.pcgAdvance delta) s = .next (respond .ok []
        { s with pcg := { s.pcg with state := pcgSteps s.pcg.state s.pcg.inc delta.toNat } })) ∧
    (s.params.hasPcgAdvance = true → s.pcg.seeded = false →
      exec (.pcgAdvance delta) s = .next (respond .notSeeded [] s)) ∧
    (s.params.hasPcgAdvance = false → exec (.pcgAdvance delta) s = .next (respond .illegalCmd [] s))

/-- R74, R118: advances compose by adding their counts mod `2^64`, so an advance by `2^64 - delta` undoes one by `delta`. -/
def Obligations.PcgAdvancesCompose : Prop :=
  ∀ s inc a b : Word,
    pcgAdvance (pcgAdvance s inc a) inc b = pcgAdvance s inc (a + b) ∧
    pcgAdvance (pcgAdvance s inc a) inc (0#64 - a) = s

/-- R80: for every odd `inc`, `2^64` steps return every state to itself, the count matters only mod `2^64`, and no smaller
positive count returns to the start. The last clause, that the period is exactly `2^64`, is what R80 marks as a passage from
general knowledge (G1 of 93_implementation_defined.md); the source states only the return after `2^64` steps. -/
def Obligations.PcgPeriodIsExactly : Prop :=
  ∀ s inc : Word, inc.getLsbD 0 = true →
    pcgSteps s inc (2 ^ 64) = s ∧
    (∀ d : Nat, pcgSteps s inc d = pcgSteps s inc (d % 2 ^ 64)) ∧
    (∀ d : Nat, 0 < d → d < 2 ^ 64 → pcgSteps s inc d ≠ s)

/-- R77: `PCG.SAVE` returns the two state words and nothing else, and changes nothing. -/
def Obligations.PcgSaveShowsTheWords : Prop :=
  (∀ p : Params, p.hasPersist = true → decode p ⟨0x08, []⟩ = .ok .pcgSave) ∧
  ∀ s : State,
    (s.params.hasPersist = true → s.pcg.seeded = true →
      exec .pcgSave s = .next (respond .ok (bytesLe64 s.pcg.state ++ bytesLe64 s.pcg.inc) s)) ∧
    (s.params.hasPersist = true → s.pcg.seeded = false → exec .pcgSave s = .next (respond .notSeeded [] s)) ∧
    (s.params.hasPersist = false → exec .pcgSave s = .next (respond .illegalCmd [] s))

/-- R78: `PCG.LOAD` reads two little-endian words and stores them as given when the image of `inc` is odd; an even one is
refused with `BAD_STATE`. -/
def Obligations.PcgLoadStoresOrRefuses : Prop :=
  (∀ (p : Params) (b : List Byte), p.hasPersist = true → b.length = 16 →
    decode p ⟨0x09, b⟩ = .ok (.pcgLoad (le64 (b.take 8)) (le64 (b.drop 8)))) ∧
  (∀ (st ic : Word) (s : State),
    (s.params.hasPersist = true → ic.toNat % 2 = 1 →
      exec (.pcgLoad st ic) s = .next (respond .ok [] { s with pcg := { state := st, inc := ic, seeded := true } })) ∧
    (s.params.hasPersist = true → ic.toNat % 2 = 0 → exec (.pcgLoad st ic) s = .next (respond .badState [] s)) ∧
    (s.params.hasPersist = false → exec (.pcgLoad st ic) s = .next (respond .illegalCmd [] s)))

/-- R79, R99, R18: `STAT` returns the engine's seeded flag as one byte, 0x00 or 0x01, in every state, and changes nothing. -/
def Obligations.StatShowsTheFlag : Prop :=
  (∀ p : Params, decode p ⟨0x0A, []⟩ = .ok .pcgStat ∧ decode p ⟨0x1A, []⟩ = .ok .xoStat) ∧
  ∀ s : State,
    exec .pcgStat s = .next (respond .ok [if s.pcg.seeded then 0x01#8 else 0x00#8] s) ∧
    exec .xoStat s = .next (respond .ok [if s.xo.seeded then 0x01#8 else 0x00#8] s)

/-- R12: only the commands that construct an instance write `PCG.inc`; each of them that ends with `OK` leaves it odd, and
every command keeps it odd while the engine is seeded. -/
def Obligations.IncIsWrittenByConstructionOnly : Prop :=
  ∀ (i : Instr) (s t : State), exec i s = .next t →
    ((i.command.constructs && i.command.onPcg) = false → t.pcg.inc = s.pcg.inc) ∧
    ((i.command.constructs && i.command.onPcg) = true → t.responses = s.responses ++ [⟨.ok, []⟩] →
      t.pcg.seeded = true ∧ t.pcg.inc.getLsbD 0 = true) ∧
    (s.PcgIncOdd → t.PcgIncOdd)

/-! ## The Xoshiro256** engine -/

/-- R81: the scrambler in rotate form; it is a bijection of `s1`, and its output is 0 exactly when `s1` is. -/
def Obligations.XoOutIsABijectionOfS1 : Prop :=
  (∀ w : XoWords, xoOut w = ((w.s1 * 5#64).rotateLeft 7) * 9#64) ∧
  (∀ a b : XoWords, xoOut a = xoOut b ↔ a.s1 = b.s1) ∧
  (∀ r : Word, ∃ x : Word, ∀ w : XoWords, w.s1 = x → xoOut w = r) ∧
  (∀ w : XoWords, xoOut w = 0#64 ↔ w.s1 = 0#64)

/-- R85: the step is linear over exclusive or, fixes the zero state, is a bijection, and so keeps a state non-zero. -/
def Obligations.XoStepIsALinearBijection : Prop :=
  (∀ a b : XoWords, xoStep (xoXor a b) = xoXor (xoStep a) (xoStep b)) ∧
  xoStep xoZero = xoZero ∧ xoOut xoZero = 0#64 ∧
  Function.Bijective xoStep ∧
  (∀ w : XoWords, w ≠ xoZero → xoStep w ≠ xoZero)

/-- R91, R92, with R81 and the closed form R84: one draw answers the scrambled old `s1`, whole or its low 32 bits, and both
commands leave the same next state. -/
def Obligations.XoNextDraws : Prop :=
  (∀ p : Params, decode p ⟨0x13, []⟩ = .ok .xoNext64 ∧ decode p ⟨0x12, []⟩ = .ok .xoNext32) ∧
  ∀ s : State,
    (s.xo.seeded = true →
      ∃ (r : Word) (w : XoWords),
        r = ((s.xo.words.s1 * 5#64).rotateLeft 7) * 9#64 ∧
        w = { s0 := s.xo.words.s0 ^^^ s.xo.words.s1 ^^^ s.xo.words.s3
              s1 := s.xo.words.s0 ^^^ s.xo.words.s1 ^^^ s.xo.words.s2
              s2 := s.xo.words.s0 ^^^ s.xo.words.s2 ^^^ (s.xo.words.s1 <<< 17)
              s3 := (s.xo.words.s1 ^^^ s.xo.words.s3).rotateLeft 45 } ∧
        exec .xoNext64 s = .next (respond .ok (bytesLe64 r) { s with xo := { s.xo with words := w } }) ∧
        exec .xoNext32 s = .next (respond .ok ((bytesLe64 r).take 4) { s with xo := { s.xo with words := w } })) ∧
    (s.xo.seeded = false →
      exec .xoNext64 s = .next (respond .notSeeded [] s) ∧ exec .xoNext32 s = .next (respond .notSeeded [] s))

/-- R86, R87, R89: the frame of `XO.SEED` is read as four little-endian words in order; an all-zero seed is replaced by
`ZERO_SEED_SUBST`, any other is kept unchanged. -/
def Obligations.XoSeedKeepsOrSubstitutes : Prop :=
  (∀ (p : Params) (b : List Byte), b.length = 32 →
    decode p ⟨0x10, b⟩ = .ok (.xoSeed (le64 (b.take 8)) (le64 ((b.drop 8).take 8)) (le64 ((b.drop 16).take 8))
      (le64 (b.drop 24)))) ∧
  (∀ (w0 w1 w2 w3 : Word) (s : State),
    (w0 = 0#64 ∧ w1 = 0#64 ∧ w2 = 0#64 ∧ w3 = 0#64 →
      exec (.xoSeed w0 w1 w2 w3) s = .next (respond .ok []
        { s with xo := { words := ⟨s.params.z0, s.params.z1, s.params.z2, s.params.z3⟩, seeded := true } })) ∧
    (¬(w0 = 0#64 ∧ w1 = 0#64 ∧ w2 = 0#64 ∧ w3 = 0#64) →
      exec (.xoSeed w0 w1 w2 w3) s = .next (respond .ok [] { s with xo := { words := ⟨w0, w1, w2, w3⟩, seeded := true } })))

/-- R88: with admissible parameters an all-zero seed gives a non-zero state whose first two outputs are non-zero and
distinct. -/
def Obligations.ZeroSeedIsSafe : Prop :=
  ∀ s : State, s.params.Admissible →
    ∃ (t : State) (r1 r2 : Word),
      execAll [.xoSeed 0 0 0 0, .xoNext64, .xoNext64] s = .next t ∧
      t.responses = s.responses ++ [⟨.ok, []⟩, ⟨.ok, bytesLe64 r1⟩, ⟨.ok, bytesLe64 r2⟩] ∧
      r1 ≠ 0#64 ∧ r2 ≠ 0#64 ∧ r1 ≠ r2 ∧ t.xo.words ≠ xoZero

/-- R90: after any number of all-zero replies, each followed by a new request for 32 bytes, `XO.SEEDRNG` stores the first
reply that is not all zero, as drawn; or ends with the failure the source gives. The last two clauses rest on how the model
holds a source that has not answered (notes/assumptions/4.md): the command stays in progress. -/
def Obligations.XoSeedrngRedraws : Prop :=
  ∀ (s : State) (zs : List EntropyBytes), (∀ z ∈ zs, ∀ x ∈ z.toList, x = 0#8) →
    (∀ (b : EntropyBytes) (rest : List EntropyEvent), (∃ x ∈ b.toList, x ≠ 0#8) →
      s.entropy = zs.map .ok ++ .ok b :: rest →
      exec .xoSeedrng s = .next (respond .ok [] { s with
        requests := s.requests ++ List.replicate (zs.length + 1) 32, entropy := rest, inFlight := none
        xo := { words := { s0 := le64 (b.toList.take 8)
                           s1 := le64 ((b.toList.drop 8).take 8)
                           s2 := le64 ((b.toList.drop 16).take 8)
                           s3 := le64 (b.toList.drop 24) }
                seeded := true } })) ∧
    (∀ (e : ErrorCode) (rest : List EntropyEvent), s.entropy = zs.map .ok ++ .fail e :: rest →
      exec .xoSeedrng s = .next (respond .entropyFail (bytesLe32 e) { s with
        requests := s.requests ++ List.replicate (zs.length + 1) 32, entropy := rest, inFlight := none })) ∧
    (s.entropy = zs.map .ok →
      exec .xoSeedrng s = .next { s with
        requests := s.requests ++ List.replicate (zs.length + 1) 32, entropy := [], inFlight := some .xoSeedrng }) ∧
    (∀ rest : List EntropyEvent, s.entropy = zs.map .ok ++ .notYet :: rest →
      exec .xoSeedrng s = .next { s with
        requests := s.requests ++ List.replicate (zs.length + 1) 32, entropy := rest, inFlight := some .xoSeedrng })

/-- R117: against a source that answers nothing but 32 zero bytes, however often and with whatever waits, `XO.SEEDRNG` never
responds, accepts no frame and writes no state word, in any number of steps; a reset ends it. An infinite run is the model's
choice among the forms R117 allows (notes/assumptions/5.md). -/
def Obligations.XoSeedrngMayNeverEnd : Prop :=
  ∀ s : State, s.inFlight = some .xoSeedrng →
    (∀ ev ∈ s.entropy, ev = .notYet ∨ ∃ z, ev = .ok z ∧ ∀ x ∈ z.toList, x = 0#8) →
    ((∀ rest, s.hostEvents ≠ .reset :: rest) → ∀ n : Nat, ∃ t : State,
      core.run n s = .next t ∧ t.inFlight = some .xoSeedrng ∧ t.responses = s.responses ∧
        t.hostEvents = s.hostEvents ∧ t.xo = s.xo ∧ t.pcg = s.pcg) ∧
    (∀ rest, s.hostEvents = .reset :: rest → ∃ t, step s = .next t ∧ t.inFlight = none ∧ t.responses = s.responses)

/-- R93, R94, with R54, R55: `XO.FILL` and `XO.TRYFILL` give the first `LEN` bytes of the little-endian images of
`ceil(LEN / 8)` draws, one step a draw, and end with `OK` for every `LEN` on a seeded engine. -/
def Obligations.XoFillBytes : Prop :=
  (∀ (p : Params) (b : List Byte), b.length = 8 →
    decode p ⟨0x14, b⟩ = .ok (.xoFill (le64 b)) ∧ decode p ⟨0x15, b⟩ = .ok (.xoTryfill (le64 b))) ∧
  ∀ (len : Word) (s : State), ∀ i ∈ [Instr.xoFill len, Instr.xoTryfill len],
    (s.xo.seeded = true →
      exec i s = .next (respond .ok
        (((drawWords xoNext64 ((len.toNat + 7) / 8) s.xo.words).1.flatMap bytesLe64).take len.toNat)
        { s with xo := { s.xo with words := xoSteps s.xo.words ((len.toNat + 7) / 8) } })) ∧
    (s.xo.seeded = false → exec i s = .next (respond .notSeeded [] s))

/-- R95, R96: `XO.JUMP` leaves the state that `2^128` single steps leave. -/
def Obligations.XoJumpIsTwoPow128Steps : Prop :=
  (∀ p : Params, decode p ⟨0x17, []⟩ = .ok .xoJump) ∧
  ∀ s : State,
    (s.xo.seeded = true →
      exec .xoJump s = .next (respond .ok [] { s with xo := { s.xo with words := xoSteps s.xo.words (2 ^ 128) } })) ∧
    (s.xo.seeded = false → exec .xoJump s = .next (respond .notSeeded [] s))

/-- R95: the jump is linear, maps zero to zero, commutes with the step, is a bijection, and keeps a state non-zero. -/
def Obligations.XoJumpIsALinearBijection : Prop :=
  (∀ a b : XoWords, xoJump (xoXor a b) = xoXor (xoJump a) (xoJump b)) ∧
  xoJump xoZero = xoZero ∧
  (∀ w : XoWords, xoJump (xoStep w) = xoStep (xoJump w)) ∧
  Function.Bijective xoJump ∧
  (∀ w : XoWords, w ≠ xoZero → xoJump w ≠ xoZero)

/-- R97: `XO.SAVE` returns the four state words in order and nothing else, and changes nothing. -/
def Obligations.XoSaveShowsTheWords : Prop :=
  (∀ p : Params, p.hasPersist = true → decode p ⟨0x18, []⟩ = .ok .xoSave) ∧
  ∀ s : State,
    (s.params.hasPersist = true → s.xo.seeded = true →
      exec .xoSave s = .next (respond .ok (bytesLe64 s.xo.words.s0 ++ bytesLe64 s.xo.words.s1 ++
        bytesLe64 s.xo.words.s2 ++ bytesLe64 s.xo.words.s3) s)) ∧
    (s.params.hasPersist = true → s.xo.seeded = false → exec .xoSave s = .next (respond .notSeeded [] s)) ∧
    (s.params.hasPersist = false → exec .xoSave s = .next (respond .illegalCmd [] s))

/-- R98: `XO.LOAD` reads four little-endian words and stores them as given; the all-zero image is refused with `BAD_STATE`
and never substituted. -/
def Obligations.XoLoadStoresOrRefuses : Prop :=
  (∀ (p : Params) (b : List Byte), p.hasPersist = true → b.length = 32 →
    decode p ⟨0x19, b⟩ = .ok (.xoLoad (le64 (b.take 8)) (le64 ((b.drop 8).take 8)) (le64 ((b.drop 16).take 8))
      (le64 (b.drop 24)))) ∧
  (∀ (w0 w1 w2 w3 : Word) (s : State),
    (s.params.hasPersist = true → ¬(w0 = 0#64 ∧ w1 = 0#64 ∧ w2 = 0#64 ∧ w3 = 0#64) →
      exec (.xoLoad w0 w1 w2 w3) s = .next (respond .ok [] { s with xo := { words := ⟨w0, w1, w2, w3⟩, seeded := true } })) ∧
    (s.params.hasPersist = true → w0 = 0#64 ∧ w1 = 0#64 ∧ w2 = 0#64 ∧ w3 = 0#64 →
      exec (.xoLoad w0 w1 w2 w3) s = .next (respond .badState [] s)) ∧
    (s.params.hasPersist = false → exec (.xoLoad w0 w1 w2 w3) s = .next (respond .illegalCmd [] s)))

/-! ## The whole machine -/

/-- R12, R14, R88: the invariant of the machine is kept by every step, from every state that has it. -/
def Obligations.InvKeptByEveryStep : Prop :=
  ∀ s t : State, s.Inv → step s = .next t → t.Inv

/-- R12, R14, R88: the state after reset has the invariant. Its parameters are the model's choice, the defaults of R6
(notes/assumptions/2.md). -/
def Obligations.InvAtReset : Prop := State.reset.Inv

/-- R2: no command addressed to one engine reads or writes any state of the other: with the other engine replaced by any
other, it answers the same next state but for that engine, which it leaves as it was. -/
def Obligations.EnginesAreIndependent : Prop :=
  (∀ (i : Instr) (s t : State) (e : XoEngine), i.command.onPcg = true → exec i s = .next t →
    t.xo = s.xo ∧ exec i { s with xo := e } = .next { t with xo := e }) ∧
  (∀ (i : Instr) (s t : State) (e : PcgEngine), i.command.onPcg = false → exec i s = .next t →
    t.pcg = s.pcg ∧ exec i { s with pcg := e } = .next { t with pcg := e })

/-- R33 (c): a PCG command and an XO command that draw no entropy can be exchanged: the engines end equal and each gets the
same response. -/
def Obligations.PcgAndXoCommandsCommute : Prop :=
  ∀ (p x : Instr) (s : State), p.command.onPcg = true → x.command.onPcg = false →
    p.command.drawsEntropy = false → x.command.drawsEntropy = false →
    ∃ (t u : State) (rp rx : Response),
      execAll [p, x] s = .next t ∧ execAll [x, p] s = .next u ∧ t.pcg = u.pcg ∧ t.xo = u.xo ∧
      t.responses = s.responses ++ [rp, rx] ∧ u.responses = s.responses ++ [rx, rp]

/-- R24, R113: what an unseeded engine's state words hold is never observable: two runs from states that differ in nothing
else give the same responses and requests, step by step, and differ in nothing else again. -/
def Obligations.ResetWordsAreUnobservable : Prop :=
  ∀ (n : Nat) (a b ta : State), SameWhereSeeded a b → core.run n a = .next ta →
    ∃ tb, core.run n b = .next tb ∧ SameWhereSeeded ta tb

/-- R15: a command that constructs an instance and ends with `OK` forgets the old one: whatever the engine held, the next
state is the same. -/
def Obligations.ConstructionForgetsTheOldInstance : Prop :=
  (∀ (i : Instr) (s t : State) (e : PcgEngine), i.command.constructs = true → i.command.onPcg = true →
    exec i s = .next t → t.responses = s.responses ++ [⟨.ok, []⟩] → exec i { s with pcg := e } = .next t) ∧
  (∀ (i : Instr) (s t : State) (e : XoEngine), i.command.constructs = true → i.command.onPcg = false →
    exec i s = .next t → t.responses = s.responses ++ [⟨.ok, []⟩] → exec i { s with xo := e } = .next t)

/-- R53, R59: blocks with equal engines, parameters and entropy replies answer any list of commands with the same responses,
element for element, and end with equal engines. -/
def Obligations.EqualEnginesAnswerEqually : Prop :=
  ∀ (is : List Instr) (a b : State),
    a.pcg = b.pcg → a.xo = b.xo → a.params = b.params → a.entropy = b.entropy →
    ∃ (ta tb : State) (rs : List Response),
      execAll is a = .next ta ∧ execAll is b = .next tb ∧ ta.pcg = tb.pcg ∧ ta.xo = tb.xo ∧
      ta.responses = a.responses ++ rs ∧ tb.responses = b.responses ++ rs

/-- R61, R49: loading what `SAVE` returned, on any block of the same kind, gives the saved engine (the pseudo-command
`CLONE`). -/
def Obligations.SaveThenLoadClones : Prop :=
  (∀ a b : State, a.params.hasPersist = true → a.pcg.seeded = true → a.PcgIncOdd →
    ∃ (ta : State) (q : List Byte), exec .pcgSave a = .next ta ∧ ta.responses = a.responses ++ [⟨.ok, q⟩] ∧
      ∀ rest, b.params.hasPersist = true → b.Presents ⟨0x09, q⟩ rest →
        step b = .next (respond .ok [] { b with hostEvents := rest, pcg := a.pcg })) ∧
  (∀ a b : State, a.params.hasPersist = true → a.xo.seeded = true → a.XoNonzero →
    ∃ (ta : State) (q : List Byte), exec .xoSave a = .next ta ∧ ta.responses = a.responses ++ [⟨.ok, q⟩] ∧
      ∀ rest, b.params.hasPersist = true → b.Presents ⟨0x19, q⟩ rest →
        step b = .next (respond .ok [] { b with hostEvents := rest, xo := a.xo }))

/-- R119: PCG seeds that differ only in bit 63 of `seq` give one instance; so do the all-zero XO seed and the one that spells
`ZERO_SEED_SUBST`. -/
def Obligations.CoincidingSeeds : Prop :=
  (∀ (seed seq : Word) (s : State),
    exec (.pcgSeed seed (seq ^^^ 0x8000000000000000#64)) s = exec (.pcgSeed seed seq) s) ∧
  (∀ s : State, s.params.Admissible →
    exec (.xoSeed s.params.z0 s.params.z1 s.params.z2 s.params.z3) s = exec (.xoSeed 0 0 0 0) s)

/-- R31: `SAVE`, `STAT`, fills of length 0 and `PCG.ADVANCE` by 0 give their one response and change nothing else. -/
def Obligations.IdleCommandsChangeNothing : Prop :=
  ∀ (s : State), ∀ i ∈ [Instr.pcgSave, .xoSave, .pcgStat, .xoStat, .pcgFill 0, .pcgTryfill 0, .xoFill 0, .xoTryfill 0,
      .pcgAdvance 0],
    ∃ r : Response, exec i s = .next { s with responses := s.responses ++ [r] }

/-! ## Runs -/

/-- R121, R51, R115, R122: a run of commands from an idle block is the steps of the block on the frames of those commands. It
ends with one response to each of them and the block idle; or it ends in a command that is in progress, with the entropy
source having no more events, and the frames behind that command are not accepted. That such a command is in progress for
ever is the model's form of R117 (notes/assumptions/4.md, notes/assumptions/5.md). -/
def Obligations.RunIsStepsOfItsFrames : Prop :=
  ∀ (is : List Instr) (s : State), s.inFlight = none →
    ∃ (t : State) (n k : Nat),
      execAll is s = .next t ∧
      core.run n { s with hostEvents := is.map fun i => .frame (encode i) } =
        .next { t with hostEvents := (is.drop k).map fun i => .frame (encode i) } ∧
      ((t.inFlight = none ∧ is.length ≤ k ∧ t.responses.length = s.responses.length + is.length) ∨
       (t.inFlight ≠ none ∧ t.entropy = []))

/-- R121, R117: a run in which a `SEEDRNG` hangs has no further responses: whatever commands stand behind it, none of them is
executed, and no state word is written. `XO.SEEDRNG` hangs on all-zero replies or none, `PCG.SEEDRNG` on none. How a source
that does not answer is held is the model's choice (notes/assumptions/4.md, notes/assumptions/5.md). -/
def Obligations.HungRunHasNoFurtherResponses : Prop :=
  ∀ (is : List Instr) (s : State),
    ((∀ ev ∈ s.entropy, ev = .notYet ∨ ∃ z, ev = .ok z ∧ ∀ x ∈ z.toList, x = 0#8) →
      ∃ t : State, execAll (.xoSeedrng :: is) s = .next t ∧ t.inFlight = some .xoSeedrng ∧ t.entropy = [] ∧
        t.responses = s.responses ∧ t.hostEvents = s.hostEvents ∧ t.pcg = s.pcg ∧ t.xo = s.xo) ∧
    ((∀ ev ∈ s.entropy, ev = .notYet) →
      ∃ t : State, execAll (.pcgSeedrng :: is) s = .next t ∧ t.inFlight = some .pcgSeedrng ∧ t.entropy = [] ∧
        t.responses = s.responses ∧ t.hostEvents = s.hostEvents ∧ t.pcg = s.pcg ∧ t.xo = s.xo)
end

