-- ==== Sys2Proof/Laws/Bytes.lean ====
section
/-! SUPPORT. The little-endian images (R9, R26): lengths, and that reading undoes writing both ways. -/

namespace Sys2Proof.Machine

@[simp] theorem bytesLe64_length (w : Word) : (bytesLe64 w).length = 8 := by simp [bytesLe64]

@[simp] theorem bytesLe32_length (v : Half) : (bytesLe32 v).length = 4 := by simp [bytesLe32]

/-- `bytes_le64` byte by byte. -/
theorem bytesLe64_eq (w : Word) :
    bytesLe64 w = [w.extractLsb' 0 8, w.extractLsb' 8 8, w.extractLsb' 16 8, w.extractLsb' 24 8,
      w.extractLsb' 32 8, w.extractLsb' 40 8, w.extractLsb' 48 8, w.extractLsb' 56 8] := rfl

/-- `bytes_le32` byte by byte. -/
theorem bytesLe32_eq (v : Half) :
    bytesLe32 v = [v.extractLsb' 0 8, v.extractLsb' 8 8, v.extractLsb' 16 8, v.extractLsb' 24 8] := rfl

/-- The value of a byte sequence as a number, little-endian. -/
theorem le64_toNat_cons (x : Byte) (rest : List Byte) :
    (le64 (x :: rest)).toNat = (x.toNat + (le64 rest).toNat * 256) % 2 ^ 64 := by
  simp [le64, BitVec.toNat_add, BitVec.toNat_mul, BitVec.toNat_setWidth]

@[simp] theorem le64_toNat_nil : (le64 []).toNat = 0 := rfl

/-- Reading an image gives the word (R26). -/
@[simp] theorem le64_bytesLe64 (w : Word) : le64 (bytesLe64 w) = w := by
  apply BitVec.eq_of_toNat_eq
  have hw := w.isLt
  simp only [bytesLe64_eq, le64_toNat_cons, le64_toNat_nil, BitVec.extractLsb'_toNat, Nat.shiftRight_eq_div_pow]
  omega

/-- Writing the word read from eight bytes gives the bytes (R26). -/
theorem bytesLe64_le64 (b : List Byte) (h : b.length = 8) : bytesLe64 (le64 b) = b := by
  match b, h with
  | [b0, b1, b2, b3, b4, b5, b6, b7], _ =>
    have h0 := b0.isLt
    have h1 := b1.isLt
    have h2 := b2.isLt
    have h3 := b3.isLt
    have h4 := b4.isLt
    have h5 := b5.isLt
    have h6 := b6.isLt
    have h7 := b7.isLt
    have e : (le64 [b0, b1, b2, b3, b4, b5, b6, b7]).toNat =
        b0.toNat + 256 * (b1.toNat + 256 * (b2.toNat + 256 * (b3.toNat + 256 * (b4.toNat + 256 *
          (b5.toNat + 256 * (b6.toNat + 256 * b7.toNat)))))) := by
      simp only [le64_toNat_cons, le64_toNat_nil]
      omega
    simp only [bytesLe64_eq, List.cons.injEq, and_true]
    refine ⟨?_, ?_, ?_, ?_, ?_, ?_, ?_, ?_⟩ <;>
      (apply BitVec.eq_of_toNat_eq
       simp only [BitVec.extractLsb'_toNat, Nat.shiftRight_eq_div_pow, e]
       omega)

/-- Reading the operand at byte 0 of an image. -/
@[simp] theorem memRead64_image_zero (w : Word) (rest : List Byte) : memRead64 (bytesLe64 w ++ rest) 0 = w := by
  simp [memRead64]

/-- Reading an operand past the first image of a payload. -/
@[simp] theorem memRead64_image_succ (w : Word) (rest : List Byte) (a : Nat) :
    memRead64 (bytesLe64 w ++ rest) (a + 8) = memRead64 rest a := by
  simp [memRead64, List.drop_append, List.drop_eq_nil_of_le]

@[simp] theorem memRead64_image (w : Word) : memRead64 (bytesLe64 w) 0 = w := by
  simpa using memRead64_image_zero w []

end Sys2Proof.Machine
end

