-- ==== Sys2Proof/Laws/Decode.lean ====
section
/-! SUPPORT. The tables of the decoder and the encoder against each other: command words, payload lengths, gates, operands. -/

namespace Sys2Proof

/-- The opcode map reads each operation's own command word back (R39). -/
@[simp] theorem commandOf_code (c : Command) : commandOf c.code = .ok c := by cases c <;> rfl

/-- A command word means one operation only (R39, R46). -/
theorem code_of_commandOf (b : Byte) (c : Command) (h : commandOf b = .ok c) : c.code = b := by
  have key : ∀ n < 256, ∀ c, commandOf (BitVec.ofNat 8 n) = .ok c → c.code = BitVec.ofNat 8 n := by
    intro n hn
    interval_cases n <;> intro c h <;> first | (cases h; rfl) | (exact absurd h (by intro k; cases k))
  have hb : BitVec.ofNat 8 b.toNat = b := by simp
  have := key b.toNat b.isLt c
  rw [hb] at this
  exact this h

/-- The gate of a command is the gate of its operation (R45). -/
@[simp] theorem present_command (p : Params) (i : Instr) : i.command.present p = i.wf p := by cases i <;> rfl

@[simp] theorem payload_length (i : Instr) : i.payload.length = i.command.payloadLength := by
  cases i <;> simp [Instr.payload, Instr.command, Command.payloadLength]

/-- What decoding a frame can answer, when it answers a command (R50). -/
theorem decode_ok {p : Params} {f : Frame} {i : Instr} (h : decode p f = .ok i) :
    ∃ c, commandOf f.cmd = .ok c ∧ c.present p = true ∧ f.payload.length = c.payloadLength ∧ i = c.assemble f.payload := by
  unfold decode at h
  split at h
  · cases h
  · rename_i c hc
    split at h
    · cases h
    · split at h
      · cases h
      · rename_i hp hl
        refine ⟨c, hc, by simpa using hp, by simpa using hl, ?_⟩
        cases h
        rfl

/-- A frame with the command word of an operation the build has, and a payload of its length, decodes to that operation
with the operands assembled from the payload (R50). -/
theorem decode_code {p : Params} {c : Command} {b : List Byte} (hp : c.present p = true)
    (hb : b.length = c.payloadLength) : decode p ⟨c.code, b⟩ = .ok (c.assemble b) := by
  simp [decode, hp, hb]

@[simp] theorem command_assemble (c : Command) (p : List Byte) : (c.assemble p).command = c := by cases c <;> rfl

end Sys2Proof
end

