-- ==== Sys2Proof/Laws/State.lean ====
section
/-! SUPPORT. One lemma per field per named update of the state, each true by unfolding, so that no later proof unfolds an
update. -/

namespace Sys2Proof.Machine

@[simp] theorem respond_pcg (st : Status) (q : List Byte) (s : State) : (respond st q s).pcg = s.pcg := rfl
@[simp] theorem respond_xo (st : Status) (q : List Byte) (s : State) : (respond st q s).xo = s.xo := rfl
@[simp] theorem respond_params (st : Status) (q : List Byte) (s : State) : (respond st q s).params = s.params := rfl
@[simp] theorem respond_inFlight (st : Status) (q : List Byte) (s : State) : (respond st q s).inFlight = s.inFlight := rfl
@[simp] theorem respond_hostEvents (st : Status) (q : List Byte) (s : State) : (respond st q s).hostEvents = s.hostEvents := rfl
@[simp] theorem respond_entropy (st : Status) (q : List Byte) (s : State) : (respond st q s).entropy = s.entropy := rfl
@[simp] theorem respond_responses (st : Status) (q : List Byte) (s : State) : (respond st q s).responses = s.responses ++ [⟨st, q⟩] := rfl
@[simp] theorem respond_requests (st : Status) (q : List Byte) (s : State) : (respond st q s).requests = s.requests := rfl
@[simp] theorem respond_freeIndex (st : Status) (q : List Byte) (s : State) : (respond st q s).freeIndex = s.freeIndex := rfl

@[simp] theorem buildPcg_pcg (w : Word × Word) (s : State) : (buildPcg w s).pcg = ⟨w.1, w.2, true⟩ := rfl
@[simp] theorem buildPcg_xo (w : Word × Word) (s : State) : (buildPcg w s).xo = s.xo := rfl
@[simp] theorem buildPcg_params (w : Word × Word) (s : State) : (buildPcg w s).params = s.params := rfl
@[simp] theorem buildPcg_inFlight (w : Word × Word) (s : State) : (buildPcg w s).inFlight = s.inFlight := rfl
@[simp] theorem buildPcg_hostEvents (w : Word × Word) (s : State) : (buildPcg w s).hostEvents = s.hostEvents := rfl
@[simp] theorem buildPcg_entropy (w : Word × Word) (s : State) : (buildPcg w s).entropy = s.entropy := rfl
@[simp] theorem buildPcg_responses (w : Word × Word) (s : State) : (buildPcg w s).responses = s.responses := rfl
@[simp] theorem buildPcg_requests (w : Word × Word) (s : State) : (buildPcg w s).requests = s.requests := rfl
@[simp] theorem buildPcg_freeIndex (w : Word × Word) (s : State) : (buildPcg w s).freeIndex = s.freeIndex := rfl

@[simp] theorem writePcgState_pcg (w : Word) (s : State) : (writePcgState w s).pcg = ⟨w, s.pcg.inc, s.pcg.seeded⟩ := rfl
@[simp] theorem writePcgState_xo (w : Word) (s : State) : (writePcgState w s).xo = s.xo := rfl
@[simp] theorem writePcgState_params (w : Word) (s : State) : (writePcgState w s).params = s.params := rfl
@[simp] theorem writePcgState_inFlight (w : Word) (s : State) : (writePcgState w s).inFlight = s.inFlight := rfl
@[simp] theorem writePcgState_hostEvents (w : Word) (s : State) : (writePcgState w s).hostEvents = s.hostEvents := rfl
@[simp] theorem writePcgState_entropy (w : Word) (s : State) : (writePcgState w s).entropy = s.entropy := rfl
@[simp] theorem writePcgState_responses (w : Word) (s : State) : (writePcgState w s).responses = s.responses := rfl
@[simp] theorem writePcgState_requests (w : Word) (s : State) : (writePcgState w s).requests = s.requests := rfl
@[simp] theorem writePcgState_freeIndex (w : Word) (s : State) : (writePcgState w s).freeIndex = s.freeIndex := rfl

@[simp] theorem buildXo_pcg (w : XoWords) (s : State) : (buildXo w s).pcg = s.pcg := rfl
@[simp] theorem buildXo_xo (w : XoWords) (s : State) : (buildXo w s).xo = ⟨w, true⟩ := rfl
@[simp] theorem buildXo_params (w : XoWords) (s : State) : (buildXo w s).params = s.params := rfl
@[simp] theorem buildXo_inFlight (w : XoWords) (s : State) : (buildXo w s).inFlight = s.inFlight := rfl
@[simp] theorem buildXo_hostEvents (w : XoWords) (s : State) : (buildXo w s).hostEvents = s.hostEvents := rfl
@[simp] theorem buildXo_entropy (w : XoWords) (s : State) : (buildXo w s).entropy = s.entropy := rfl
@[simp] theorem buildXo_responses (w : XoWords) (s : State) : (buildXo w s).responses = s.responses := rfl
@[simp] theorem buildXo_requests (w : XoWords) (s : State) : (buildXo w s).requests = s.requests := rfl
@[simp] theorem buildXo_freeIndex (w : XoWords) (s : State) : (buildXo w s).freeIndex = s.freeIndex := rfl

@[simp] theorem writeXoWords_pcg (w : XoWords) (s : State) : (writeXoWords w s).pcg = s.pcg := rfl
@[simp] theorem writeXoWords_xo (w : XoWords) (s : State) : (writeXoWords w s).xo = ⟨w, s.xo.seeded⟩ := rfl
@[simp] theorem writeXoWords_params (w : XoWords) (s : State) : (writeXoWords w s).params = s.params := rfl
@[simp] theorem writeXoWords_inFlight (w : XoWords) (s : State) : (writeXoWords w s).inFlight = s.inFlight := rfl
@[simp] theorem writeXoWords_hostEvents (w : XoWords) (s : State) : (writeXoWords w s).hostEvents = s.hostEvents := rfl
@[simp] theorem writeXoWords_entropy (w : XoWords) (s : State) : (writeXoWords w s).entropy = s.entropy := rfl
@[simp] theorem writeXoWords_responses (w : XoWords) (s : State) : (writeXoWords w s).responses = s.responses := rfl
@[simp] theorem writeXoWords_requests (w : XoWords) (s : State) : (writeXoWords w s).requests = s.requests := rfl
@[simp] theorem writeXoWords_freeIndex (w : XoWords) (s : State) : (writeXoWords w s).freeIndex = s.freeIndex := rfl

@[simp] theorem request_pcg (n : Nat) (s : State) : (request n s).pcg = s.pcg := rfl
@[simp] theorem request_xo (n : Nat) (s : State) : (request n s).xo = s.xo := rfl
@[simp] theorem request_params (n : Nat) (s : State) : (request n s).params = s.params := rfl
@[simp] theorem request_inFlight (n : Nat) (s : State) : (request n s).inFlight = s.inFlight := rfl
@[simp] theorem request_hostEvents (n : Nat) (s : State) : (request n s).hostEvents = s.hostEvents := rfl
@[simp] theorem request_entropy (n : Nat) (s : State) : (request n s).entropy = s.entropy := rfl
@[simp] theorem request_responses (n : Nat) (s : State) : (request n s).responses = s.responses := rfl
@[simp] theorem request_requests (n : Nat) (s : State) : (request n s).requests = s.requests ++ [n] := rfl
@[simp] theorem request_freeIndex (n : Nat) (s : State) : (request n s).freeIndex = s.freeIndex := rfl

@[simp] theorem drawn_pcg (rest : List EntropyEvent) (s : State) : (drawn rest s).pcg = s.pcg := rfl
@[simp] theorem drawn_xo (rest : List EntropyEvent) (s : State) : (drawn rest s).xo = s.xo := rfl
@[simp] theorem drawn_params (rest : List EntropyEvent) (s : State) : (drawn rest s).params = s.params := rfl
@[simp] theorem drawn_inFlight (rest : List EntropyEvent) (s : State) : (drawn rest s).inFlight = none := rfl
@[simp] theorem drawn_hostEvents (rest : List EntropyEvent) (s : State) : (drawn rest s).hostEvents = s.hostEvents := rfl
@[simp] theorem drawn_entropy (rest : List EntropyEvent) (s : State) : (drawn rest s).entropy = rest := rfl
@[simp] theorem drawn_responses (rest : List EntropyEvent) (s : State) : (drawn rest s).responses = s.responses := rfl
@[simp] theorem drawn_requests (rest : List EntropyEvent) (s : State) : (drawn rest s).requests = s.requests := rfl
@[simp] theorem drawn_freeIndex (rest : List EntropyEvent) (s : State) : (drawn rest s).freeIndex = s.freeIndex := rfl

@[simp] theorem presentFrame_pcg (f : Frame) (s : State) : (presentFrame f s).pcg = s.pcg := rfl
@[simp] theorem presentFrame_xo (f : Frame) (s : State) : (presentFrame f s).xo = s.xo := rfl
@[simp] theorem presentFrame_params (f : Frame) (s : State) : (presentFrame f s).params = s.params := rfl
@[simp] theorem presentFrame_inFlight (f : Frame) (s : State) : (presentFrame f s).inFlight = none := rfl
@[simp] theorem presentFrame_hostEvents (f : Frame) (s : State) : (presentFrame f s).hostEvents = .frame f :: s.hostEvents := rfl
@[simp] theorem presentFrame_entropy (f : Frame) (s : State) : (presentFrame f s).entropy = s.entropy := rfl
@[simp] theorem presentFrame_responses (f : Frame) (s : State) : (presentFrame f s).responses = s.responses := rfl
@[simp] theorem presentFrame_requests (f : Frame) (s : State) : (presentFrame f s).requests = s.requests := rfl
@[simp] theorem presentFrame_freeIndex (f : Frame) (s : State) : (presentFrame f s).freeIndex = s.freeIndex := rfl

@[simp] theorem resetBlock_pcg (s : State) : (resetBlock s).pcg = ⟨Config.freeWord s.freeIndex, Config.freeWord (s.freeIndex + 1), false⟩ := rfl
@[simp] theorem resetBlock_xo (s : State) : (resetBlock s).xo = ⟨⟨Config.freeWord (s.freeIndex + 2), Config.freeWord (s.freeIndex + 3), Config.freeWord (s.freeIndex + 4), Config.freeWord (s.freeIndex + 5)⟩, false⟩ := rfl
@[simp] theorem resetBlock_params (s : State) : (resetBlock s).params = s.params := rfl
@[simp] theorem resetBlock_inFlight (s : State) : (resetBlock s).inFlight = none := rfl
@[simp] theorem resetBlock_hostEvents (s : State) : (resetBlock s).hostEvents = s.hostEvents := rfl
@[simp] theorem resetBlock_entropy (s : State) : (resetBlock s).entropy = s.entropy := rfl
@[simp] theorem resetBlock_responses (s : State) : (resetBlock s).responses = s.responses := rfl
@[simp] theorem resetBlock_requests (s : State) : (resetBlock s).requests = s.requests := rfl
@[simp] theorem resetBlock_freeIndex (s : State) : (resetBlock s).freeIndex = s.freeIndex + 6 := rfl

end Sys2Proof.Machine
end

