-- ==== Sys2Proof/Laws/Ops.lean ====
section
/-! SUPPORT. What each shared operation can do, said once: the answers of `finish`, `raise`, `stall` and of the two checks. -/

namespace Sys2Proof.Machine

@[simp] theorem finish_eq_next (q : List Byte) (s t : State) : finish q s = .next t ↔ t = respond .ok q s := by
  simp [finish, eq_comm]

@[simp] theorem raise_eq_next (st : Status) (info : List Byte) (s t : State) :
    raise st info s = .next t ↔ t = respond st info s := by
  simp [raise, eq_comm]

@[simp] theorem stall_eq_next (d : SeedDraw) (rest : List EntropyEvent) (s t : State) :
    stall d rest s = .next t ↔ t = { s with inFlight := some d, entropy := rest } := by
  simp [stall, eq_comm]

/-- The seeded check passes. -/
theorem requireSeeded_of_seeded {b : Bool} (h : b = true) (s : State) (body : Result) :
    requireSeeded b s body = body := by simp [requireSeeded, h]

/-- The seeded check fails: `NOT_SEEDED`, nothing else. -/
theorem requireSeeded_of_unseeded {b : Bool} (h : b = false) (s : State) (body : Result) :
    requireSeeded b s body = .next (respond .notSeeded [] s) := by simp [requireSeeded, h, raise]

/-- The gate is open. -/
theorem requirePresent_of_present {b : Bool} (h : b = true) (s : State) (body : Result) :
    requirePresent b s body = body := by simp [requirePresent, h]

/-- The gate is closed: `ILLEGAL_CMD`, nothing else. -/
theorem requirePresent_of_absent {b : Bool} (h : b = false) (s : State) (body : Result) :
    requirePresent b s body = .next (respond .illegalCmd [] s) := by simp [requirePresent, h, raise]

/-- Everything a checked command can do: be turned away with `NOT_SEEDED`, or run its body. -/
theorem requireSeeded_next {b : Bool} {s t : State} {body : Result} (h : requireSeeded b s body = .next t) :
    (b = false ∧ t = respond .notSeeded [] s) ∨ (b = true ∧ body = .next t) := by
  cases b
  · exact .inl ⟨rfl, by simpa [requireSeeded] using h⟩
  · exact .inr ⟨rfl, by simpa [requireSeeded] using h⟩

/-- Everything a gated command can do: be refused as an illegal frame, or run its body. -/
theorem requirePresent_next {b : Bool} {s t : State} {body : Result} (h : requirePresent b s body = .next t) :
    (b = false ∧ t = respond .illegalCmd [] s) ∨ (b = true ∧ body = .next t) := by
  cases b
  · exact .inl ⟨rfl, by simpa [requirePresent] using h⟩
  · exact .inr ⟨rfl, by simpa [requirePresent] using h⟩

@[simp] theorem Status.code_injective (a b : Status) : a.code = b.code ↔ a = b := by
  cases a <;> cases b <;> decide

end Sys2Proof.Machine
end

