-- ==== Sys2Proof/Laws/Exec.lean ====
section
/-! SUPPORT. One inversion lemma per meaning: everything the command can do, as a list of next states. Later proofs cite
these and unfold no meaning. -/

namespace Sys2Proof.Machine

theorem execPcgSeed_next {seed seq : Word} {s t : State} :
    execPcgSeed seed seq s = .next t ↔ t = respond .ok [] (buildPcg (pcgConstruct seed seq) s) :=
  finish_eq_next _ _ _

/-- A command that waits for the entropy source: four cases, by what the source does next. -/
theorem awaitPcgSeed_next {s t : State} (h : awaitPcgSeed s = .next t) :
    (s.entropy = [] ∧ t = { s with inFlight := some .pcgSeedrng, entropy := [] }) ∨
    (∃ rest, s.entropy = .notYet :: rest ∧ t = { s with inFlight := some .pcgSeedrng, entropy := rest }) ∨
    (∃ e rest, s.entropy = .fail e :: rest ∧ t = respond .entropyFail (bytesLe32 e) (drawn rest s)) ∨
    (∃ b rest, s.entropy = .ok b :: rest ∧
      t = respond .ok [] (buildPcg (pcgConstructBytes (b.toList.take 16)) (drawn rest s))) := by
  unfold awaitPcgSeed at h
  split at h
  · rename_i he
    exact .inl ⟨he, by simpa using h⟩
  · rename_i rest he
    exact .inr (.inl ⟨rest, he, by simpa using h⟩)
  · rename_i e rest he
    exact .inr (.inr (.inl ⟨e, rest, he, by simpa using h⟩))
  · rename_i b rest he
    exact .inr (.inr (.inr ⟨b, rest, he, by simpa using h⟩))

theorem execPcgNext32_next {s t : State} (h : execPcgNext32 s = .next t) :
    (s.pcg.seeded = false ∧ t = respond .notSeeded [] s) ∨
    (s.pcg.seeded = true ∧ t = respond .ok (bytesLe32 (pcgNext32 s.pcg.state s.pcg.inc).1)
      (writePcgState (pcgNext32 s.pcg.state s.pcg.inc).2 s)) := by
  simpa using requireSeeded_next h

theorem execPcgNext64_next {s t : State} (h : execPcgNext64 s = .next t) :
    (s.pcg.seeded = false ∧ t = respond .notSeeded [] s) ∨
    (s.pcg.seeded = true ∧ t = respond .ok (bytesLe64 (pcgNext64 s.pcg.state s.pcg.inc).1)
      (writePcgState (pcgNext64 s.pcg.state s.pcg.inc).2 s)) := by
  simpa using requireSeeded_next h

theorem fillPcg_next {len : Word} {s t : State} (h : fillPcg len s = .next t) :
    (s.pcg.seeded = false ∧ t = respond .notSeeded [] s) ∨
    (s.pcg.seeded = true ∧ t = respond .ok (fill pcgDraw64 len.toNat (s.pcg.state, s.pcg.inc)).1
      (writePcgState (fill pcgDraw64 len.toNat (s.pcg.state, s.pcg.inc)).2.1 s)) := by
  simpa using requireSeeded_next h

theorem execPcgAdvance_next {delta : Word} {s t : State} (h : execPcgAdvance delta s = .next t) :
    (s.params.hasPcgAdvance = false ∧ t = respond .illegalCmd [] s) ∨
    (s.params.hasPcgAdvance = true ∧ s.pcg.seeded = false ∧ t = respond .notSeeded [] s) ∨
    (s.params.hasPcgAdvance = true ∧ s.pcg.seeded = true ∧
      t = respond .ok [] (writePcgState (pcgAdvance s.pcg.state s.pcg.inc delta) s)) := by
  obtain h | ⟨hp, h⟩ := requirePresent_next h
  · exact .inl h
  · obtain h | ⟨hs, h⟩ := requireSeeded_next h
    · exact .inr (.inl ⟨hp, h⟩)
    · exact .inr (.inr ⟨hp, hs, by simpa using h⟩)

theorem execPcgSave_next {s t : State} (h : execPcgSave s = .next t) :
    (s.params.hasPersist = false ∧ t = respond .illegalCmd [] s) ∨
    (s.params.hasPersist = true ∧ s.pcg.seeded = false ∧ t = respond .notSeeded [] s) ∨
    (s.params.hasPersist = true ∧ s.pcg.seeded = true ∧
      t = respond .ok (bytesLe64 s.pcg.state ++ bytesLe64 s.pcg.inc) s) := by
  obtain h | ⟨hp, h⟩ := requirePresent_next h
  · exact .inl h
  · obtain h | ⟨hs, h⟩ := requireSeeded_next h
    · exact .inr (.inl ⟨hp, h⟩)
    · exact .inr (.inr ⟨hp, hs, by simpa using h⟩)

theorem execPcgLoad_next {st ic : Word} {s t : State} (h : execPcgLoad st ic s = .next t) :
    (s.params.hasPersist = false ∧ t = respond .illegalCmd [] s) ∨
    (s.params.hasPersist = true ∧ ic.getLsbD 0 = false ∧ t = respond .badState [] s) ∨
    (s.params.hasPersist = true ∧ ic.getLsbD 0 = true ∧ t = respond .ok [] (buildPcg (st, ic) s)) := by
  obtain h | ⟨hp, h⟩ := requirePresent_next h
  · exact .inl h
  · split at h
    · rename_i hi
      exact .inr (.inl ⟨hp, hi, by simpa using h⟩)
    · rename_i hi
      exact .inr (.inr ⟨hp, by simpa using hi, by simpa using h⟩)

theorem execPcgStat_next {s t : State} : execPcgStat s = .next t ↔ t = respond .ok [statusView s.pcg.seeded] s :=
  finish_eq_next _ _ _

theorem execXoSeed_next {w0 w1 w2 w3 : Word} {s t : State} :
    execXoSeed w0 w1 w2 w3 s = .next t ↔ t = respond .ok [] (buildXo (xoConstruct s.params ⟨w0, w1, w2, w3⟩) s) :=
  finish_eq_next _ _ _

/-- A seed the re-draw loop stops with is not all zero (R90). -/
theorem xoSeedLoop_seed_ne_zero (events : List EntropyEvent) (w : XoWords) (h : (xoSeedLoop events).1 = .seed w) :
    w ≠ xoZero := by
  fun_induction xoSeedLoop events with
  | case1 => simp at h
  | case2 => simp at h
  | case3 => simp at h
  | case4 b rest w' hz r ih => exact ih (by simpa using h)
  | case5 b rest w' hz =>
    simp only [XoDraw.seed.injEq] at h
    exact h ▸ hz

/-- Everything a waiting `XO.SEEDRNG` can do, by how the re-draw loop stops. -/
theorem awaitXoSeed_next {s t : State} (h : awaitXoSeed s = .next t) :
    ((xoSeedLoop s.entropy).1 = .waiting ∧
      t = { s with
            requests := s.requests ++ List.replicate (xoSeedLoop s.entropy).2.1 32
            inFlight := some .xoSeedrng
            entropy := (xoSeedLoop s.entropy).2.2 }) ∨
    (∃ e, (xoSeedLoop s.entropy).1 = .failed e ∧
      t = respond .entropyFail (bytesLe32 e) (drawn (xoSeedLoop s.entropy).2.2
        { s with requests := s.requests ++ List.replicate (xoSeedLoop s.entropy).2.1 32 })) ∨
    (∃ w, (xoSeedLoop s.entropy).1 = .seed w ∧
      t = respond .ok [] (buildXo w (drawn (xoSeedLoop s.entropy).2.2
        { s with requests := s.requests ++ List.replicate (xoSeedLoop s.entropy).2.1 32 }))) := by
  unfold awaitXoSeed at h
  simp only at h
  split at h
  · rename_i hd
    exact .inl ⟨hd, by simpa using h⟩
  · rename_i e hd
    exact .inr (.inl ⟨e, hd, by simpa using h⟩)
  · rename_i w hd
    exact .inr (.inr ⟨w, hd, by simpa using h⟩)

theorem execXoNext32_next {s t : State} (h : execXoNext32 s = .next t) :
    (s.xo.seeded = false ∧ t = respond .notSeeded [] s) ∨
    (s.xo.seeded = true ∧ t = respond .ok (bytesLe32 (trunc32 (xoNext64 s.xo.words).1))
      (writeXoWords (xoNext64 s.xo.words).2 s)) := by
  simpa using requireSeeded_next h

theorem execXoNext64_next {s t : State} (h : execXoNext64 s = .next t) :
    (s.xo.seeded = false ∧ t = respond .notSeeded [] s) ∨
    (s.xo.seeded = true ∧ t = respond .ok (bytesLe64 (xoNext64 s.xo.words).1)
      (writeXoWords (xoNext64 s.xo.words).2 s)) := by
  simpa using requireSeeded_next h

theorem fillXo_next {len : Word} {s t : State} (h : fillXo len s = .next t) :
    (s.xo.seeded = false ∧ t = respond .notSeeded [] s) ∨
    (s.xo.seeded = true ∧ t = respond .ok (fill xoNext64 len.toNat s.xo.words).1
      (writeXoWords (fill xoNext64 len.toNat s.xo.words).2 s)) := by
  simpa using requireSeeded_next h

theorem execXoJump_next {s t : State} (h : execXoJump s = .next t) :
    (s.xo.seeded = false ∧ t = respond .notSeeded [] s) ∨
    (s.xo.seeded = true ∧ t = respond .ok [] (writeXoWords (xoJump s.xo.words) s)) := by
  simpa using requireSeeded_next h

theorem execXoSave_next {s t : State} (h : execXoSave s = .next t) :
    (s.params.hasPersist = false ∧ t = respond .illegalCmd [] s) ∨
    (s.params.hasPersist = true ∧ s.xo.seeded = false ∧ t = respond .notSeeded [] s) ∨
    (s.params.hasPersist = true ∧ s.xo.seeded = true ∧
      t = respond .ok (bytesLe64 s.xo.words.s0 ++ bytesLe64 s.xo.words.s1 ++ bytesLe64 s.xo.words.s2 ++
        bytesLe64 s.xo.words.s3) s) := by
  obtain h | ⟨hp, h⟩ := requirePresent_next h
  · exact .inl h
  · obtain h | ⟨hs, h⟩ := requireSeeded_next h
    · exact .inr (.inl ⟨hp, h⟩)
    · exact .inr (.inr ⟨hp, hs, by simpa using h⟩)

theorem execXoLoad_next {w0 w1 w2 w3 : Word} {s t : State} (h : execXoLoad w0 w1 w2 w3 s = .next t) :
    (s.params.hasPersist = false ∧ t = respond .illegalCmd [] s) ∨
    (s.params.hasPersist = true ∧ (⟨w0, w1, w2, w3⟩ : XoWords) = xoZero ∧ t = respond .badState [] s) ∨
    (s.params.hasPersist = true ∧ (⟨w0, w1, w2, w3⟩ : XoWords) ≠ xoZero ∧
      t = respond .ok [] (buildXo ⟨w0, w1, w2, w3⟩ s)) := by
  obtain h | ⟨hp, h⟩ := requirePresent_next h
  · exact .inl h
  · split at h
    · rename_i hi
      exact .inr (.inl ⟨hp, hi, by simpa using h⟩)
    · rename_i hi
      exact .inr (.inr ⟨hp, hi, by simpa using h⟩)

theorem execXoStat_next {s t : State} : execXoStat s = .next t ↔ t = respond .ok [statusView s.xo.seeded] s :=
  finish_eq_next _ _ _

end Sys2Proof.Machine
end

