-- ==== Sys2Proof/Laws/PerInstr.lean ====
section
/-! SUPPORT. The family EncodeShape: the frame of every command has the command word of its row in the opcode map (R39) and
the payload length of R40. -/

namespace Sys2Proof.Laws.EncodeShape

/-- The frame of `i` carries a legal command word for `i`'s operation, a payload of the length R40 gives it, and reads back
as that operation. -/
def Statement (i : Instr) : Prop :=
  commandOf (encode i).cmd = .ok i.command ∧ (encode i).payload.length = i.command.payloadLength

/-- The tables of the encoder agree for every command. -/
theorem of_tables (i : Instr) : Statement i := ⟨commandOf_code i.command, payload_length i⟩

theorem pcgSeed (seed seq : Word) : Statement (.pcgSeed seed seq) := of_tables _
theorem pcgSeedrng : Statement .pcgSeedrng := of_tables _
theorem pcgNext32 : Statement .pcgNext32 := of_tables _
theorem pcgNext64 : Statement .pcgNext64 := of_tables _
theorem pcgFill (len : Word) : Statement (.pcgFill len) := of_tables _
theorem pcgTryfill (len : Word) : Statement (.pcgTryfill len) := of_tables _
theorem pcgAdvance (delta : Word) : Statement (.pcgAdvance delta) := of_tables _
theorem pcgSave : Statement .pcgSave := of_tables _
theorem pcgLoad (st ic : Word) : Statement (.pcgLoad st ic) := of_tables _
theorem pcgStat : Statement .pcgStat := of_tables _
theorem xoSeed (w0 w1 w2 w3 : Word) : Statement (.xoSeed w0 w1 w2 w3) := of_tables _
theorem xoSeedrng : Statement .xoSeedrng := of_tables _
theorem xoNext32 : Statement .xoNext32 := of_tables _
theorem xoNext64 : Statement .xoNext64 := of_tables _
theorem xoFill (len : Word) : Statement (.xoFill len) := of_tables _
theorem xoTryfill (len : Word) : Statement (.xoTryfill len) := of_tables _
theorem xoJump : Statement .xoJump := of_tables _
theorem xoSave : Statement .xoSave := of_tables _
theorem xoLoad (w0 w1 w2 w3 : Word) : Statement (.xoLoad w0 w1 w2 w3) := of_tables _
theorem xoStat : Statement .xoStat := of_tables _

end Sys2Proof.Laws.EncodeShape
end

