-- ==== Sys2Proof/Laws/Step.lean ====
section
/-! SUPPORT. What a step can do, said once: the reset event, a wait of a command in progress, a decoded command, an illegal
frame, or nothing. -/

namespace Sys2Proof.Machine

/-- The five kinds of step. -/
theorem step_next {s t : State} (h : step s = .next t) :
    (∃ rest, s.hostEvents = .reset :: rest ∧ t = resetBlock { s with hostEvents := rest }) ∨
    (∃ d, s.inFlight = some d ∧ (∀ rest, s.hostEvents ≠ .reset :: rest) ∧ resume d s = .next t) ∨
    (∃ f rest i, s.inFlight = none ∧ s.hostEvents = .frame f :: rest ∧ decode s.params f = .ok i ∧
      exec i { s with hostEvents := rest } = .next t) ∨
    (∃ f rest e, s.inFlight = none ∧ s.hostEvents = .frame f :: rest ∧ decode s.params f = .error e ∧
      t = respond .illegalCmd [] { s with hostEvents := rest }) ∨
    (s.inFlight = none ∧ s.hostEvents = [] ∧ t = s) := by
  unfold step nextMove at h
  rcases he : s.hostEvents with _ | ⟨ev, rest⟩
  · rcases hi : s.inFlight with _ | d
    · simp only [he, hi] at h
      right; right; right; right
      exact ⟨rfl, rfl, by cases h; rfl⟩
    · simp only [he, hi] at h
      exact .inr (.inl ⟨d, rfl, by simp, h⟩)
  · rcases ev with f | _
    · rcases hi : s.inFlight with _ | d
      · simp only [he, hi, acceptFrame] at h
        rcases hd : decode s.params f with e | i
        · simp only [hd, answerIllegal, raise_eq_next] at h
          exact .inr (.inr (.inr (.inl ⟨f, rest, e, rfl, rfl, hd, h⟩)))
        · simp only [hd] at h
          exact .inr (.inr (.inl ⟨f, rest, i, rfl, rfl, hd, h⟩))
      · simp only [he, hi] at h
        exact .inr (.inl ⟨d, rfl, by simp, h⟩)
    · simp only [he] at h
      exact .inl ⟨rest, rfl, by cases h; rfl⟩

end Sys2Proof.Machine
end

