-- ==== Sys2Proof/Laws/Run.lean ====
section
/-! SUPPORT. What a run does, one command at a time: when a command is waited for, and when the run goes on behind it. -/

namespace Sys2Proof.Machine

@[simp] theorem andThen_next (t : State) (f : State → Result) : andThen (.next t) f = f t := rfl

/-- What a run that answers a next state went through. -/
theorem andThen_eq_next {r : Result} {f : State → Result} {u : State} :
    andThen r f = .next u ↔ ∃ t, r = .next t ∧ f t = .next u := by
  cases r <;> simp [andThen]

@[simp] theorem inProgress_respond (st : Status) (q : List Byte) (s : State) (c : Command) :
    (respond st q s).inProgress c = s.inProgress c := rfl

/-- An idle block has no command in progress. -/
theorem inProgress_of_idle {s : State} (h : s.inFlight = none) (c : Command) : s.inProgress c = false := by
  simp [State.inProgress, h]

theorem inProgress_iff {s : State} {c : Command} :
    s.inProgress c = true ↔ ∃ d, s.inFlight = some d ∧ d.command = c := by
  cases h : s.inFlight <;> simp [State.inProgress, h]

/-- Only a command that draws entropy can be in progress. -/
theorem inProgress_of_not_draws {c : Command} (h : c.drawsEntropy = false) (s : State) : s.inProgress c = false := by
  cases hs : s.inFlight with
  | none => simp [State.inProgress, hs]
  | some d => cases d <;> cases c <;> simp_all [State.inProgress, SeedDraw.command, Command.drawsEntropy]

/-- A command that is not in progress is not waited for. -/
theorem waitFor_of_not_inProgress (fuel : Nat) {c : Command} {s : State} (h : s.inProgress c = false) :
    waitFor fuel c s = .next s := by
  cases fuel with
  | zero => rfl
  | succ k =>
    cases hs : s.inFlight with
    | none => simp [waitFor, hs]
    | some d =>
      have : d.command ≠ c := by simpa [State.inProgress, hs] using h
      simp [waitFor, hs, this]

/-- One wait of a command in progress. -/
theorem waitFor_succ (k : Nat) {s : State} {d : SeedDraw} (h : s.inFlight = some d) :
    waitFor (k + 1) d.command s = andThen (resume d s) (waitFor k d.command) := by
  simp [waitFor, h]

@[simp] theorem execAll_nil (s : State) : execAll [] s = .next s := rfl

/-- A command that ends at once: the run goes on behind it. -/
theorem execAll_cons_of_ends {i : Instr} {s t : State} (rest : List Instr) (h : exec i s = .next t)
    (hp : t.inProgress i.command = false) : execAll (i :: rest) s = execAll rest t := by
  simp [execAll, h, waitFor_of_not_inProgress _ hp, hp]

end Sys2Proof.Machine
end

