-- ==== Sys2Proof/Laws/Xo.lean ====
section
/-! SUPPORT. Algebra of the Xoshiro256** state under exclusive or (R85): the vector laws, and that a step and the rotation
are additive. -/

namespace Sys2Proof.Machine

theorem xoWords_ext {a b : XoWords} (h0 : a.s0 = b.s0) (h1 : a.s1 = b.s1) (h2 : a.s2 = b.s2) (h3 : a.s3 = b.s3) :
    a = b := by
  cases a; cases b; simp_all

theorem xoXor_comm (a b : XoWords) : xoXor a b = xoXor b a := by
  simp [xoXor, BitVec.xor_comm]

theorem xoXor_assoc (a b c : XoWords) : xoXor (xoXor a b) c = xoXor a (xoXor b c) := by
  simp [xoXor, BitVec.xor_assoc]

theorem xoXor_left_comm (a b c : XoWords) : xoXor a (xoXor b c) = xoXor b (xoXor a c) := by
  rw [← xoXor_assoc, xoXor_comm a b, xoXor_assoc]

@[simp] theorem xoXor_self (a : XoWords) : xoXor a a = xoZero := by simp [xoXor, xoZero]

@[simp] theorem xoXor_zero (a : XoWords) : xoXor a xoZero = a := by simp [xoXor, xoZero]

@[simp] theorem zero_xoXor (a : XoWords) : xoXor xoZero a = a := by simp [xoXor, xoZero]

@[simp] theorem xoXor_self_left (a b : XoWords) : xoXor a (xoXor a b) = b := by
  rw [← xoXor_assoc, xoXor_self, zero_xoXor]

theorem xoXor_eq_zero {a b : XoWords} : xoXor a b = xoZero ↔ a = b := by
  constructor
  · intro h
    rw [← xoXor_zero a, ← xoXor_self b, ← xoXor_assoc, h, zero_xoXor]
  · rintro rfl
    exact xoXor_self a

theorem rotl64_xor (a b : Word) (k : Nat) : rotl64 (a ^^^ b) k = rotl64 a k ^^^ rotl64 b k := by
  unfold rotl64
  split
  · rfl
  · ext i hi
    simp only [BitVec.getElem_or, BitVec.getElem_xor, BitVec.getElem_shiftLeft, BitVec.getElem_ushiftRight,
      BitVec.getLsbD_xor]
    by_cases h1 : i < k
    · simp [h1]
    · have h2 : 64 ≤ 64 - k + i := by omega
      simp [h1, BitVec.getLsbD_of_ge _ _ h2]

@[simp] theorem xoStep_zero : xoStep xoZero = xoZero := by decide

/-- The update word by word (R83). -/
theorem xoStep_s0 (w : XoWords) : (xoStep w).s0 = w.s0 ^^^ (w.s3 ^^^ w.s1) := rfl
theorem xoStep_s1 (w : XoWords) : (xoStep w).s1 = w.s1 ^^^ (w.s2 ^^^ w.s0) := rfl
theorem xoStep_s2 (w : XoWords) : (xoStep w).s2 = w.s2 ^^^ w.s0 ^^^ w.s1 <<< 17 := rfl
theorem xoStep_s3 (w : XoWords) : (xoStep w).s3 = rotl64 (w.s3 ^^^ w.s1) 45 := rfl

theorem xoXor_s0 (a b : XoWords) : (xoXor a b).s0 = a.s0 ^^^ b.s0 := rfl
theorem xoXor_s1 (a b : XoWords) : (xoXor a b).s1 = a.s1 ^^^ b.s1 := rfl
theorem xoXor_s2 (a b : XoWords) : (xoXor a b).s2 = a.s2 ^^^ b.s2 := rfl
theorem xoXor_s3 (a b : XoWords) : (xoXor a b).s3 = a.s3 ^^^ b.s3 := rfl

/-- A step is additive over exclusive or (R85). -/
theorem xoStep_xor (a b : XoWords) : xoStep (xoXor a b) = xoXor (xoStep a) (xoStep b) := by
  apply xoWords_ext
  · rw [xoXor_s0, xoStep_s0, xoStep_s0, xoStep_s0, xoXor_s0, xoXor_s1, xoXor_s3]
    ac_rfl
  · rw [xoXor_s1, xoStep_s1, xoStep_s1, xoStep_s1, xoXor_s0, xoXor_s1, xoXor_s2]
    ac_rfl
  · rw [xoXor_s2, xoStep_s2, xoStep_s2, xoStep_s2, xoXor_s0, xoXor_s1, xoXor_s2, BitVec.shiftLeft_xor_distrib]
    generalize a.s1 <<< 17 = x, b.s1 <<< 17 = y
    ac_rfl
  · rw [xoXor_s3, xoStep_s3, xoStep_s3, xoStep_s3, xoXor_s1, xoXor_s3, ← rotl64_xor]
    congr 1
    ac_rfl

end Sys2Proof.Machine
end

