-- ==== Sys2Proof/Laws/XoPoly.lean ====
section
/-! SUPPORT. Polynomials over GF(2) acting on the Xoshiro256** state by powers of the step: `xoPoly n p` is the sum of
`XoStep^i` over the bits `i < n` set in `p`. The jump is such a polynomial (R95); these laws let its equality with a power
of the step be checked by squaring modulo a polynomial that annihilates the step. -/

namespace Sys2Proof.Machine

/-- The action of the polynomial whose coefficient `i` is bit `i` of `p`, for `i < n`. -/
def xoPoly (n p : Nat) (w : XoWords) : XoWords :=
  match n with
  | 0 => xoZero
  | k + 1 => xoXor (if p % 2 = 1 then w else xoZero) (xoPoly k (p / 2) (xoStep w))

/-- The spread of the bits of `p`: coefficient `i` moves to `2 i`. Over GF(2) it is the square of the polynomial. -/
def spread (n p : Nat) : Nat :=
  match n with
  | 0 => 0
  | k + 1 => p % 2 + 4 * spread k (p / 2)

theorem xoPoly_zero_poly (n : Nat) (w : XoWords) : xoPoly n 0 w = xoZero := by
  induction n generalizing w with
  | zero => rfl
  | succ k ih => simp [xoPoly, ih]

/-- The action is additive in the state. -/
theorem xoPoly_xor (n p : Nat) (a b : XoWords) : xoPoly n p (xoXor a b) = xoXor (xoPoly n p a) (xoPoly n p b) := by
  induction n generalizing p a b with
  | zero => simp [xoPoly]
  | succ k ih =>
    simp only [xoPoly, xoStep_xor, ih]
    split
    · simp only [xoXor_assoc, xoXor_left_comm]
    · simp

@[simp] theorem xoPoly_zero (n p : Nat) : xoPoly n p xoZero = xoZero := by
  induction n generalizing p with
  | zero => rfl
  | succ k ih => simp [xoPoly, ih]

/-- The action commutes with the step. -/
theorem xoPoly_step (n p : Nat) (w : XoWords) : xoPoly n p (xoStep w) = xoStep (xoPoly n p w) := by
  induction n generalizing p w with
  | zero => simp [xoPoly]
  | succ k ih =>
    simp only [xoPoly, xoStep_xor, ih]
    split <;> simp

/-- The action is additive in the polynomial. -/
theorem xoPoly_xor_poly (n p q : Nat) (w : XoWords) :
    xoPoly n (p ^^^ q) w = xoXor (xoPoly n p w) (xoPoly n q w) := by
  induction n generalizing p q w with
  | zero => simp [xoPoly]
  | succ k ih =>
    have hd : (p ^^^ q) / 2 = p / 2 ^^^ q / 2 := by
      simpa [Nat.shiftRight_eq_div_pow] using Nat.shiftRight_xor_distrib (a := p) (b := q) (i := 1)
    have hm : (p ^^^ q) % 2 = 1 ↔ ¬(p % 2 = 1 ↔ q % 2 = 1) := by
      have := Nat.testBit_xor p q 0
      simp only [Nat.testBit_zero] at this
      by_cases h1 : p % 2 = 1 <;> by_cases h2 : q % 2 = 1 <;> simp_all
    simp only [xoPoly, hd, ih, hm]
    by_cases h1 : p % 2 = 1 <;> by_cases h2 : q % 2 = 1 <;> simp [h1, h2, xoXor_assoc, xoXor_left_comm]

/-- Multiplying the polynomial by `X` is one step more. -/
theorem xoPoly_double (n p : Nat) (w : XoWords) : xoPoly (n + 1) (2 * p) w = xoPoly n p (xoStep w) := by
  simp [xoPoly]

/-- A coefficient above the polynomial's bits changes nothing. -/
theorem xoPoly_extend (n p : Nat) (w : XoWords) (h : p < 2 ^ n) : xoPoly (n + 1) p w = xoPoly n p w := by
  induction n generalizing p w with
  | zero =>
    obtain rfl : p = 0 := by simpa using h
    simp [xoPoly]
  | succ k ih =>
    have : p / 2 < 2 ^ k := by rw [Nat.pow_succ] at h; omega
    rw [xoPoly, ih _ _ this]
    rfl

theorem xoPoly_extend_add (n m p : Nat) (w : XoWords) (h : p < 2 ^ n) : xoPoly (n + m) p w = xoPoly n p w := by
  induction m with
  | zero => rfl
  | succ k ih =>
    rw [← Nat.add_assoc, xoPoly_extend, ih]
    exact lt_of_lt_of_le h (Nat.pow_le_pow_right (by decide) (Nat.le_add_right n k))

/-- A polynomial that annihilates every state still does after multiplication by a power of `X`. -/
theorem xoPoly_shift_annihilates (n p m : Nat) (h : ∀ w, xoPoly n p w = xoZero) (w : XoWords) :
    xoPoly (n + m) (2 ^ m * p) w = xoZero := by
  induction m generalizing w with
  | zero => simpa using h w
  | succ k ih =>
    have : 2 ^ (k + 1) * p = 2 * (2 ^ k * p) := by rw [Nat.pow_succ]; ring
    rw [this, ← Nat.add_assoc, xoPoly_double]
    exact ih _

/-- Squaring (R85): the spread polynomial acts as the polynomial applied twice. -/
theorem xoPoly_spread (n p : Nat) (w : XoWords) : xoPoly (2 * n) (spread n p) w = xoPoly n p (xoPoly n p w) := by
  induction n generalizing p w with
  | zero => simp [xoPoly]
  | succ k ih =>
    have h1 : (p % 2 + 4 * spread k (p / 2)) % 2 = p % 2 := by omega
    have h2 : (p % 2 + 4 * spread k (p / 2)) / 2 = 2 * spread k (p / 2) := by omega
    have e : 2 * (k + 1) = (2 * k + 1) + 1 := by ring
    rw [e, xoPoly, spread, h1, h2, xoPoly_double, ih]
    simp only [xoPoly, xoPoly_xor, xoStep_xor, xoPoly_step]
    by_cases hp : p % 2 = 1 <;> simp [hp, xoXor_assoc, xoXor_left_comm]

/-- The powers of the step are the polynomials `X^n`. -/
theorem xoPoly_pow (n : Nat) (w : XoWords) : xoPoly (n + 1) (2 ^ n) w = xoSteps w n := by
  induction n generalizing w with
  | zero => simp [xoPoly, xoSteps]
  | succ k ih =>
    have e : 2 ^ (k + 1) = 2 * 2 ^ k := by rw [Nat.pow_succ]; ring
    have hs : ∀ m v, xoSteps (xoStep v) m = xoStep (xoSteps v m) := by
      intro m v
      induction m with
      | zero => rfl
      | succ j hj => simp [xoSteps, hj]
    rw [e, xoPoly_double, ih, xoSteps, hs]

end Sys2Proof.Machine
end

