-- ==== Sys2Proof/Laws/XoChar.lean ====
section
/-! SUPPORT. A polynomial of degree 256 that annihilates the Xoshiro256** step. By additivity and commutation it is enough to
evaluate it on the 64 states with one bit set in `s2`; the kernel does that. -/

namespace Sys2Proof.Machine

/-- The annihilating polynomial, coefficient `i` in bit `i`. -/
def xoChar : Nat := 0x10003c03c3f3ecb1904b4edcf26259f850280002bcefd1a5e9d116f2bb0f0f001

/-- A property of words that holds of 0 and of single bits and is kept by exclusive or holds of every word. -/
theorem word_bits_induction {P : Word → Prop} (h0 : P 0#64) (hx : ∀ a b, P a → P b → P (a ^^^ b))
    (h1 : ∀ k < 64, P (BitVec.twoPow 64 k)) (v : Word) : P v := by
  have key : ∀ n, n ≤ 64 → ∀ v : Word, (∀ i, n ≤ i → v.getLsbD i = false) → P v := by
    intro n
    induction n with
    | zero =>
      intro _ v hv
      have : v = 0#64 := by
        apply BitVec.eq_of_getLsbD_eq
        intro i _
        simp [hv i (Nat.zero_le i)]
      exact this ▸ h0
    | succ n ih =>
      intro hn v hv
      have e : v = (v &&& BitVec.twoPow 64 n) ^^^ (v &&& ~~~BitVec.twoPow 64 n) := by
        apply BitVec.eq_of_getLsbD_eq
        intro i hi
        simp only [BitVec.getLsbD_xor, BitVec.getLsbD_and, BitVec.getLsbD_not, hi]
        cases v.getLsbD i <;> cases (BitVec.twoPow 64 n).getLsbD i <;> rfl
      rw [e]
      apply hx
      · rw [BitVec.and_twoPow]
        split
        · exact h1 n (by omega)
        · exact h0
      · apply ih (by omega)
        intro i hi
        rcases Nat.lt_or_ge i (n + 1) with hlt | hge
        · obtain rfl : i = n := by omega
          simp
        · simp [hv i hge]
  exact key 64 le_rfl v fun i hi => BitVec.getLsbD_of_ge v i hi

theorem rotl64_eq_zero {x : Word} (h : rotl64 x 45 = 0#64) : x = 0#64 := by
  simp only [rotl64, Nat.reduceEqDiff, if_false, BitVec.or_eq_zero_iff] at h
  obtain ⟨hl, hr⟩ := h
  have hl' := congrArg BitVec.toNat hl
  have hr' := congrArg BitVec.toNat hr
  apply BitVec.eq_of_toNat_eq
  simp [Nat.shiftLeft_eq, Nat.shiftRight_eq_div_pow] at hl' hr' ⊢
  omega

/-- A word equal to itself shifted by 17 is 0. -/
theorem eq_zero_of_eq_shift {x : Word} (h : x = x <<< 17) : x = 0#64 := by
  apply BitVec.eq_of_getLsbD_eq
  intro i
  induction i using Nat.strong_induction_on with
  | _ i ih =>
    intro hi
    rw [h, BitVec.getLsbD_shiftLeft]
    by_cases hk : i < 17
    · simp [hk]
    · rw [ih (i - 17) (by omega) (by omega)]
      simp

/-- Only the zero state steps to the zero state (R85). -/
theorem xoStep_eq_zero {w : XoWords} (h : xoStep w = xoZero) : w = xoZero := by
  have h0 : w.s0 ^^^ (w.s3 ^^^ w.s1) = 0#64 := congrArg XoWords.s0 h
  have h1 : w.s1 ^^^ (w.s2 ^^^ w.s0) = 0#64 := congrArg XoWords.s1 h
  have h2 : w.s2 ^^^ w.s0 ^^^ w.s1 <<< 17 = 0#64 := congrArg XoWords.s2 h
  have h3 : w.s3 ^^^ w.s1 = 0#64 := rotl64_eq_zero (congrArg XoWords.s3 h)
  have e0 : w.s0 = 0#64 := by simpa [h3] using h0
  have e2 : w.s1 = w.s2 := by simpa [e0, BitVec.xor_eq_zero_iff] using h1
  have e1 : w.s1 = 0#64 := by
    apply eq_zero_of_eq_shift
    simpa [e0, ← e2, BitVec.xor_eq_zero_iff] using h2
  have e3 : w.s3 = 0#64 := by simpa [e1] using h3
  exact xoWords_ext e0 e1 (e2 ▸ e1) e3

/-- Only the zero state is fixed by the step. -/
theorem xoStep_eq_self {w : XoWords} (h : xoStep w = w) : w = xoZero := by
  have h0 : w.s0 ^^^ (w.s3 ^^^ w.s1) = w.s0 := congrArg XoWords.s0 h
  have h1 : w.s1 ^^^ (w.s2 ^^^ w.s0) = w.s1 := congrArg XoWords.s1 h
  have h2 : w.s2 ^^^ w.s0 ^^^ w.s1 <<< 17 = w.s2 := congrArg XoWords.s2 h
  have h3 : rotl64 (w.s3 ^^^ w.s1) 45 = w.s3 := congrArg XoWords.s3 h
  have z3 : w.s3 ^^^ w.s1 = 0#64 := by simpa using h0
  have e3 : w.s3 = 0#64 := by rw [← h3, z3]; decide
  have e1 : w.s1 = 0#64 := by simpa [e3] using z3
  have z2 : w.s2 ^^^ w.s0 = 0#64 := by simpa using h1
  have e2 : w.s2 = 0#64 := by rw [← h2, z2, e1]; decide
  have e0 : w.s0 = 0#64 := by simpa [e2] using z2
  exact xoWords_ext e0 e1 e2 e3

/-- An additive map that commutes with the step and sends every state with one bit set in `s2`, and no other, to zero
sends every state to zero. -/
theorem eq_zero_of_s2_bits {f : XoWords → XoWords} (hx : ∀ a b, f (xoXor a b) = xoXor (f a) (f b))
    (hs : ∀ w, f (xoStep w) = xoStep (f w)) (hb : ∀ k < 64, f ⟨0#64, 0#64, BitVec.twoPow 64 k, 0#64⟩ = xoZero)
    (w : XoWords) : f w = xoZero := by
  have hz : f xoZero = xoZero := by
    have := hx xoZero xoZero
    simpa using this
  have hc : ∀ v, f ⟨0#64, 0#64, v, 0#64⟩ = xoZero := by
    refine word_bits_induction hz (fun a b ha hb' => ?_) hb
    have := hx ⟨0#64, 0#64, a, 0#64⟩ ⟨0#64, 0#64, b, 0#64⟩
    rw [ha, hb'] at this
    simpa [xoXor, xoZero] using this
  have hb1 : ∀ v, f ⟨0#64, v, 0#64, 0#64⟩ = xoZero := by
    intro v
    have e : xoStep ⟨0#64, 0#64, v, 0#64⟩ = xoXor ⟨0#64, v, 0#64, 0#64⟩ ⟨0#64, 0#64, v, 0#64⟩ := by
      apply xoWords_ext <;> simp [xoStep, xoXor, rotl64]
    have := hs ⟨0#64, 0#64, v, 0#64⟩
    rw [e, hx, hc] at this
    simpa using this
  have ha : ∀ v, f ⟨v, 0#64, 0#64, 0#64⟩ = xoZero := by
    intro v
    have e : xoStep ⟨v, 0#64, 0#64, 0#64⟩ =
        xoXor ⟨v, 0#64, 0#64, 0#64⟩ (xoXor ⟨0#64, v, 0#64, 0#64⟩ ⟨0#64, 0#64, v, 0#64⟩) := by
      apply xoWords_ext <;> simp [xoStep, xoXor, rotl64]
    have := hs ⟨v, 0#64, 0#64, 0#64⟩
    rw [e, hx, hx, hc, hb1] at this
    exact xoStep_eq_self (by simpa using this.symm)
  have hd : ∀ v, f ⟨0#64, 0#64, 0#64, v⟩ = xoZero := by
    intro v
    have e1 : xoStep ⟨0#64, v, 0#64, v⟩ = xoXor ⟨0#64, v, 0#64, 0#64⟩ ⟨0#64, 0#64, v <<< 17, 0#64⟩ := by
      apply xoWords_ext <;> simp [xoStep, xoXor, rotl64]
    have e2 : (⟨0#64, v, 0#64, v⟩ : XoWords) = xoXor ⟨0#64, v, 0#64, 0#64⟩ ⟨0#64, 0#64, 0#64, v⟩ := by
      apply xoWords_ext <;> simp [xoXor]
    have := hs ⟨0#64, v, 0#64, v⟩
    rw [e1, e2, hx, hx, hc, hb1, zero_xoXor] at this
    exact xoStep_eq_zero (by simpa using this.symm)
  have e : w = xoXor ⟨w.s0, 0#64, 0#64, 0#64⟩ (xoXor ⟨0#64, w.s1, 0#64, 0#64⟩
      (xoXor ⟨0#64, 0#64, w.s2, 0#64⟩ ⟨0#64, 0#64, 0#64, w.s3⟩)) := by
    apply xoWords_ext <;> simp [xoXor]
  rw [e, hx, hx, hx, ha, hb1, hc, hd]
  simp

theorem xoChar_bits_low : ∀ k < 32, xoPoly 257 xoChar ⟨0#64, 0#64, BitVec.twoPow 64 k, 0#64⟩ = xoZero := by
  decide +kernel

theorem xoChar_bits_high : ∀ k < 32, xoPoly 257 xoChar ⟨0#64, 0#64, BitVec.twoPow 64 (k + 32), 0#64⟩ = xoZero := by
  decide +kernel

/-- `xoChar` annihilates the step. -/
theorem xoPoly_xoChar (w : XoWords) : xoPoly 257 xoChar w = xoZero := by
  refine eq_zero_of_s2_bits (f := xoPoly 257 xoChar) (xoPoly_xor _ _) (xoPoly_step _ _) (fun k hk => ?_) w
  rcases Nat.lt_or_ge k 32 with h | h
  · exact xoChar_bits_low k h
  · have := xoChar_bits_high (k - 32) (by omega)
    rwa [Nat.sub_add_cancel h] at this

end Sys2Proof.Machine
end

