-- ==== Sys2Proof/Laws/XoJump.lean ====
section
/-! SUPPORT. The jump of R95 as a polynomial in the step, and squaring of such polynomials modulo `xoChar`. -/

namespace Sys2Proof.Machine

/-- The polynomial whose coefficients are the bits of a list, lowest first. -/
def polyOfBits (bits : List Bool) : Nat :=
  match bits with
  | [] => 0
  | b :: rest => b.toNat + 2 * polyOfBits rest

/-- The jump polynomial of R95 as one number: `JUMP[3] JUMP[2] JUMP[1] JUMP[0]`. -/
def jumpPoly : Nat := 0x39abdc4529b1661ca9582618e03fc9aad5a61266f0c9392c180ec6d33cfd0aba

theorem foldl_xoJumpBit (bits : List Bool) (a w : XoWords) :
    (bits.foldl xoJumpBit (a, w)).1 = xoXor a (xoPoly bits.length (polyOfBits bits) w) := by
  induction bits generalizing a w with
  | nil => simp [xoPoly]
  | cons b rest ih =>
    have hm : (b.toNat + 2 * polyOfBits rest) % 2 = b.toNat := by cases b <;> simp
    have hd : (b.toNat + 2 * polyOfBits rest) / 2 = polyOfBits rest := by cases b <;> simp; omega
    simp only [List.foldl_cons, xoJumpBit, ih, List.length_cons, xoPoly, polyOfBits, hm, hd]
    cases b <;> simp [xoXor_assoc]

/-- The jump is the action of `jumpPoly` (R95). -/
theorem xoJump_eq_xoPoly (w : XoWords) : xoJump w = xoPoly 256 jumpPoly w := by
  have hp : polyOfBits (Config.jump.flatMap bitsLowFirst) = jumpPoly := by decide +kernel
  have hl : (Config.jump.flatMap bitsLowFirst).length = 256 := by decide +kernel
  rw [xoJump, foldl_xoJumpBit, hp, hl, zero_xoXor]

/-- The remainder of a polynomial of degree below `256 + m` modulo `xoChar`. -/
def xoReduce (m p : Nat) : Nat :=
  match m with
  | 0 => p
  | k + 1 => xoReduce k (if p.testBit (256 + k) then p ^^^ (2 ^ k * xoChar) else p)

/-- Reduction modulo `xoChar` does not change the action. -/
theorem xoPoly_reduce (m p : Nat) (hm : m ≤ 256) (w : XoWords) : xoPoly 513 (xoReduce m p) w = xoPoly 513 p w := by
  induction m generalizing p with
  | zero => rfl
  | succ k ih =>
    rw [xoReduce, ih _ (by omega)]
    split
    · have h : xoPoly (257 + k) (2 ^ k * xoChar) w = xoZero := xoPoly_shift_annihilates 257 xoChar k xoPoly_xoChar w
      have hlt : 2 ^ k * xoChar < 2 ^ (257 + k) := by
        have : xoChar < 2 ^ 257 := Nat.lt_of_lt_of_eq (by decide : xoChar < 2 ^ 256 * 2) (Nat.pow_succ (n := 2) (m := 256)).symm
        rw [Nat.pow_add, Nat.mul_comm]
        exact Nat.mul_lt_mul_of_pos_right this (by positivity)
      have hx := xoPoly_extend_add (257 + k) (256 - k) (2 ^ k * xoChar) w hlt
      rw [show 257 + k + (256 - k) = 513 by omega, h] at hx
      rw [xoPoly_xor_poly, hx, xoXor_zero]
    · rfl

theorem spread_lt (n p : Nat) : spread n p < 2 ^ (2 * n) := by
  induction n generalizing p with
  | zero => simp [spread]
  | succ k ih =>
    have := ih (p / 2)
    rw [spread, show 2 * (k + 1) = 2 * k + 2 by ring, Nat.pow_add]
    omega

/-- The square of a polynomial modulo `xoChar`. -/
def xoSquare (p : Nat) : Nat := xoReduce 256 (spread 256 p)

/-- The square acts as the polynomial applied twice. -/
theorem xoPoly_square (p : Nat) (h : xoSquare p < 2 ^ 256) (w : XoWords) :
    xoPoly 256 (xoSquare p) w = xoPoly 256 p (xoPoly 256 p w) := by
  rw [← xoPoly_spread, ← xoPoly_extend_add 256 257 (xoSquare p) w h, xoSquare, xoPoly_reduce _ _ (by omega),
    ← xoPoly_extend_add (2 * 256) 1 _ w (spread_lt 256 p)]

end Sys2Proof.Machine
end

