-- ==== Sys2Proof/Machine/Asm.lean ====
section
/-! DEFINITION. The line syntax of spec/30_encoding.md R48 and the pseudo-commands of R49: from a line of text to the frame
the assembler emits for it. It stands beside the machine; no step reads it. The expected response after `->`, the
assumed entropy replies after `<-` and the comment after `;` emit nothing. -/

namespace Sys2Proof.Machine

/-- The mnemonic of each operation (R39). -/
def commandMnemonic (c : Command) : String :=
  match c with
  | .pcgSeed => "PCG.SEED"
  | .pcgSeedrng => "PCG.SEEDRNG"
  | .pcgNext32 => "PCG.NEXT32"
  | .pcgNext64 => "PCG.NEXT64"
  | .pcgFill => "PCG.FILL"
  | .pcgTryfill => "PCG.TRYFILL"
  | .pcgAdvance => "PCG.ADVANCE"
  | .pcgSave => "PCG.SAVE"
  | .pcgLoad => "PCG.LOAD"
  | .pcgStat => "PCG.STAT"
  | .xoSeed => "XO.SEED"
  | .xoSeedrng => "XO.SEEDRNG"
  | .xoNext32 => "XO.NEXT32"
  | .xoNext64 => "XO.NEXT64"
  | .xoFill => "XO.FILL"
  | .xoTryfill => "XO.TRYFILL"
  | .xoJump => "XO.JUMP"
  | .xoSave => "XO.SAVE"
  | .xoLoad => "XO.LOAD"
  | .xoStat => "XO.STAT"

/-- The operations, in the order of the opcode table. -/
def allCommands : List Command :=
  [.pcgSeed, .pcgSeedrng, .pcgNext32, .pcgNext64, .pcgFill, .pcgTryfill, .pcgAdvance, .pcgSave, .pcgLoad, .pcgStat,
   .xoSeed, .xoSeedrng, .xoNext32, .xoNext64, .xoFill, .xoTryfill, .xoJump, .xoSave, .xoLoad, .xoStat]

/-- The value of a digit in base `base` (10 or 16). -/
def digit (base : Nat) (c : Char) : Option Nat :=
  let n := c.toNat
  let v :=
    if 48 ≤ n ∧ n ≤ 57 then n - 48
    else if 97 ≤ n ∧ n ≤ 102 then n - 87
    else if 65 ≤ n ∧ n ≤ 70 then n - 55
    else base
  if v < base then some v else none

/-- Digits, most significant first, after the value `acc`. -/
def digits (base acc : Nat) (cs : List Char) : Option Nat :=
  match cs with
  | [] => some acc
  | c :: rest =>
    match digit base c with
    | some v => digits base (acc * base + v) rest
    | none => none

/-- One unsigned integer below `2^64`, decimal or `0x` hexadecimal (R48). -/
def integer (cs : List Char) : Option Word :=
  let n :=
    match cs with
    | '0' :: 'x' :: c :: rest => digits 16 0 (c :: rest)
    | c :: rest => digits 10 0 (c :: rest)
    | [] => none
  match n with
  | some v => if v < 2 ^ 64 then some (BitVec.ofNat 64 v) else none
  | none => none

/-- The bytes of a byte string up to its closing quote: two hexadecimal digits per byte, blanks between bytes. -/
def hexBytes (cs : List Char) : Option (List Byte) :=
  match cs with
  | ['"'] => some []
  | ' ' :: rest => hexBytes rest
  | a :: b :: rest =>
    match digit 16 a, digit 16 b, hexBytes rest with
    | some x, some y, some bs => some (BitVec.ofNat 8 (16 * x + y) :: bs)
    | _, _, _ => none
  | _ => none

/-- A byte string `h"..."` (R48). -/
def byteString (cs : List Char) : Option (List Byte) :=
  match cs with
  | 'h' :: '"' :: rest => hexBytes rest
  | _ => none

/-- The part of a line that emits bytes: what stands before `;`, `->` or `<-`. -/
def emitting (cs : List Char) : List Char :=
  match cs with
  | [] => []
  | ';' :: _ => []
  | '-' :: '>' :: _ => []
  | '<' :: '-' :: _ => []
  | c :: rest => c :: emitting rest

/-- A text without the blanks at its two ends. -/
def trim (cs : List Char) : List Char :=
  ((cs.dropWhile (· == ' ')).reverse.dropWhile (· == ' ')).reverse

/-- The texts between commas. -/
def commaParts (cs : List Char) : List (List Char) :=
  match cs with
  | [] => [[]]
  | ',' :: rest => [] :: commaParts rest
  | c :: rest =>
    match commaParts rest with
    | p :: ps => (c :: p) :: ps
    | [] => [[c]]

/-- Integers separated by commas, as the bytes of their little-endian images (R49). -/
def integerBytes (parts : List (List Char)) : Option (List Byte) :=
  match parts with
  | [] => some []
  | p :: rest =>
    match integer (trim p), integerBytes rest with
    | some w, some bs => some (bytesLe64 w ++ bs)
    | _, _ => none

/-- The payload of an operation from its operand text (R40, R48): nothing, one integer, or a byte string. -/
def operandBytes (c : Command) (text : List Char) : Option (List Byte) :=
  if c.payloadLength = 0 then (if text = [] then some [] else none)
  else if c.payloadLength = 8 then (integer text).map bytesLe64
  else byteString text

/-- The operation a pseudo-command with integer operands expands to (R49). -/
def pseudoCommand (name : List Char) : Option Command :=
  if name = "PCG.SEEDW".toList then some .pcgSeed
  else if name = "XO.SEEDW".toList then some .xoSeed
  else if name = "PCG.LOADW".toList then some .pcgLoad
  else if name = "XO.LOADW".toList then some .xoLoad
  else none

/-- The frame of one line (R48, R49), if the line is one of the syntax and its payload has the length of R40. -/
def assembleLine (line : String) : Option Frame :=
  let text := trim (emitting line.toList)
  let name := text.takeWhile (· != ' ')
  let operand := trim (text.drop name.length)
  let payload : Option (Command × List Byte) :=
    match pseudoCommand name with
    | some c => (integerBytes (commaParts operand)).map (c, ·)
    | none =>
      match allCommands.find? (fun c => (commandMnemonic c).toList == name) with
      | some c => (operandBytes c operand).map (c, ·)
      | none => none
  match payload with
  | some (c, bs) => if bs.length = c.payloadLength then some ⟨c.code, bs⟩ else none
  | none => none

end Sys2Proof.Machine
end

