-- ==== Sys2Proof/Tests/Slice0.lean ====
section
/-! SUPPORT. The model's own tests: the smoke test of WellFormed, decoding of frames written out from the spec, single steps
against the vectors of spec/95_test_vectors.md (the source of every expected value; its label stands in each comment), and
a witness for the hypotheses of every obligation that has some. -/

open Sys2Proof Sys2Proof.Machine

namespace Sys2Proof.Tests

/-! ## Helpers -/

/-- A build without the jump-ahead unit and without persisted state. -/
def bare : Params := { Config.defaultParams with hasPcgAdvance := false, hasPersist := false }

/-- The bytes 0, 1, .., `n - 1`. -/
def upTo (n : Nat) : List Byte := (List.range n).map (BitVec.ofNat 8)

/-- `n` zero bytes. -/
def zeros (n : Nat) : List Byte := List.replicate n 0#8

/-- The 32-byte reply all of whose bytes are zero. -/
def zeroReply : EntropyBytes := ⟨⟨zeros 32⟩, rfl⟩

/-- The reply with the bytes 00 01 .. 1f. -/
def seedReply : EntropyBytes := ⟨⟨upTo 32⟩, rfl⟩

/-- The reply whose first 16 bytes are the seed of vector P1. -/
def pcgReply : EntropyBytes := ⟨⟨0x2a#8 :: zeros 7 ++ 0x36#8 :: zeros 23⟩, rfl⟩

/-- The state `S_A` of spec/95_test_vectors.md. -/
def sA : XoWords := ⟨0x0706050403020100, 0x0F0E0D0C0B0A0908, 0x1716151413121110, 0x1F1E1D1C1B1A1918⟩

/-- `S_A` after one draw (X2). -/
def sA1 : XoWords := ⟨0x1716151413121110, 0x1F1E1D1C1B1A1918, 0x0A08060402001010, 0x0202020202020202⟩

/-- `S_A` after two draws (X2). -/
def sA2 : XoWords := ⟨0x0A0A0A0A0A0A0A0A, 0x02000E0C0A081818, 0x2726252423220100, 0x036343A383E3C323⟩

/-- The PCG engine of vector P1. -/
def pcgP1 : PcgEngine := { state := 0x185706B82C2E03F8, inc := 0x6D, seeded := true }

/-- Both engines seeded: P1 and `S_A`. -/
def both : State := { State.reset with pcg := pcgP1, xo := { words := sA, seeded := true } }

/-- What the entropy source will do, from reset. -/
def fromReset (es : List EntropyEvent) : State := { State.reset with entropy := es }

/-- The next state's answer to a question. -/
def ask {α : Type} (r : Result) (f : State → α) : Option α :=
  match r with
  | .next t => some (f t)
  | .fault _ => none
  | .refused _ => none

/-- The responses and the PCG engine after a command. -/
def pcgAsk (r : Result) : Option (List Response × PcgEngine) := ask r fun t => (t.responses, t.pcg)

/-- The responses and the XO engine after a command. -/
def xoAsk (r : Result) : Option (List Response × XoEngine) := ask r fun t => (t.responses, t.xo)

/-- The responses after a command. -/
def responsesOf (r : Result) : Option (List Response) := ask r fun t => t.responses

/-- What a frame given as bytes decodes to in the build of the test vectors. -/
def decodeBytes (b : List Byte) : Option Instr :=
  match b with
  | [] => none
  | c :: p =>
    match decode Config.defaultParams ⟨c, p⟩ with
    | .ok i => some i
    | .error _ => none

/-- Why a frame is illegal, if it is. -/
def refusal (p : Params) (f : Frame) : Option Illegal :=
  match decode p f with
  | .ok _ => none
  | .error e => some e

/-! ## WellFormed: the gates of R45 refuse exactly the gated commands -/

theorem test_wf_gates :
    Instr.wf bare (.pcgAdvance 1) = false ∧ Instr.wf bare .pcgSave = false ∧ Instr.wf bare (.pcgLoad 0 1) = false ∧
    Instr.wf bare .xoSave = false ∧ Instr.wf bare (.xoLoad 1 2 3 4) = false := by decide

theorem test_wf_others :
    Instr.wf bare (.pcgSeed 0 0) = true ∧ Instr.wf bare .xoJump = true ∧ Instr.wf bare .pcgStat = true ∧
    Instr.wf Config.defaultParams (.pcgAdvance 0) = true ∧ Instr.wf Config.defaultParams (.xoLoad 0 0 0 0) = true := by
  decide

/-! ## Decoding: frames written out from R38 to R41 -/

theorem test_decode_pcgSeed :
    decodeBytes
      [0x00, 0x88, 0x77, 0x66, 0x55, 0x44, 0x33, 0x22, 0x11, 0x36, 0x00, 0x00, 0x00, 0x00, 0x00, 0x00, 0x80] =
      some (.pcgSeed 0x1122334455667788 0x8000000000000036) := by decide
theorem test_decode_pcgSeedrng :
    decodeBytes [0x01] = some (.pcgSeedrng) := by decide
theorem test_decode_pcgNext32 :
    decodeBytes [0x02] = some (.pcgNext32) := by decide
theorem test_decode_pcgNext64 :
    decodeBytes [0x03] = some (.pcgNext64) := by decide
theorem test_decode_pcgFill :
    decodeBytes [0x04, 0x88, 0x77, 0x66, 0x55, 0x44, 0x33, 0x22, 0x11] = some (.pcgFill 0x1122334455667788) := by decide
theorem test_decode_pcgTryfill :
    decodeBytes [0x05, 0xff, 0x00, 0x00, 0x00, 0x00, 0x00, 0x00, 0x00] = some (.pcgTryfill 0xff) := by decide
theorem test_decode_pcgAdvance :
    decodeBytes [0x06, 0xff, 0xff, 0xff, 0xff, 0xff, 0xff, 0xff, 0xff] = some (.pcgAdvance 0xffffffffffffffff) := by decide
theorem test_decode_pcgSave :
    decodeBytes [0x08] = some (.pcgSave) := by decide
theorem test_decode_pcgLoad :
    decodeBytes
      [0x09, 0xf8, 0x03, 0x2e, 0x2c, 0xb8, 0x06, 0x57, 0x18, 0x6d, 0x00, 0x00, 0x00, 0x00, 0x00, 0x00, 0x00] =
      some (.pcgLoad 0x185706B82C2E03F8 0x6D) := by decide
theorem test_decode_pcgStat :
    decodeBytes [0x0a] = some (.pcgStat) := by decide
theorem test_decode_xoSeed :
    decodeBytes
      [0x10, 0x00, 0x01, 0x02, 0x03, 0x04, 0x05, 0x06, 0x07, 0x08, 0x09, 0x0a, 0x0b, 0x0c, 0x0d, 0x0e, 0x0f, 0x10,
       0x11, 0x12, 0x13, 0x14, 0x15, 0x16, 0x17, 0x18, 0x19, 0x1a, 0x1b, 0x1c, 0x1d, 0x1e, 0x1f] =
      some (.xoSeed 0x0706050403020100 0x0F0E0D0C0B0A0908 0x1716151413121110 0x1F1E1D1C1B1A1918) := by decide
theorem test_decode_xoSeedrng :
    decodeBytes [0x11] = some (.xoSeedrng) := by decide
theorem test_decode_xoNext32 :
    decodeBytes [0x12] = some (.xoNext32) := by decide
theorem test_decode_xoNext64 :
    decodeBytes [0x13] = some (.xoNext64) := by decide
theorem test_decode_xoFill :
    decodeBytes [0x14, 0x0d, 0x00, 0x00, 0x00, 0x00, 0x00, 0x00, 0x00] = some (.xoFill 13) := by decide
theorem test_decode_xoTryfill :
    decodeBytes [0x15, 0x08, 0x00, 0x00, 0x00, 0x00, 0x00, 0x00, 0x00] = some (.xoTryfill 8) := by decide
theorem test_decode_xoJump :
    decodeBytes [0x17] = some (.xoJump) := by decide
theorem test_decode_xoSave :
    decodeBytes [0x18] = some (.xoSave) := by decide
theorem test_decode_xoLoad :
    decodeBytes
      [0x19, 0x01, 0x00, 0x00, 0x00, 0x00, 0x00, 0x00, 0x00, 0x02, 0x00, 0x00, 0x00, 0x00, 0x00, 0x00, 0x00, 0x03,
       0x00, 0x00, 0x00, 0x00, 0x00, 0x00, 0x00, 0x04, 0x00, 0x00, 0x00, 0x00, 0x00, 0x00, 0x00] =
      some (.xoLoad 1 2 3 4) := by decide
theorem test_decode_xoStat :
    decodeBytes [0x1a] = some (.xoStat) := by decide

/-- The bits of the command word, R38: RSV = 000, ENG = 1, OP = 0101 is `XO.TRYFILL`; any RSV bit set is illegal. -/
theorem test_decode_fields :
    commandOf (0b000_1_0101 : Byte) = .ok .xoTryfill ∧ commandOf (0b001_1_0101 : Byte) = .error .reservedBits ∧
    commandOf (0b100_0_0000 : Byte) = .error .reservedBits := by refine ⟨rfl, rfl, rfl⟩

/-- The illegal frames of section 2.9. -/
theorem test_illegal_frames :
    refusal Config.defaultParams ⟨0x07, []⟩ = some .wrongEngine ∧
    refusal Config.defaultParams ⟨0x16, 1 :: zeros 7⟩ = some .wrongEngine ∧
    refusal Config.defaultParams ⟨0x0b, []⟩ = some .reservedOp ∧ refusal Config.defaultParams ⟨0x1f, []⟩ = some .reservedOp ∧
    refusal Config.defaultParams ⟨0x20, []⟩ = some .reservedBits ∧ refusal Config.defaultParams ⟨0xff, []⟩ = some .reservedBits ∧
    refusal Config.defaultParams ⟨0x04, 7 :: zeros 6⟩ = some .payloadLength ∧
    refusal Config.defaultParams ⟨0x02, [0]⟩ = some .payloadLength ∧
    refusal Config.defaultParams ⟨0x00, zeros 15⟩ = some .payloadLength ∧
    refusal Config.defaultParams ⟨0x00, zeros 17⟩ = some .payloadLength ∧
    refusal Config.defaultParams ⟨0x10, zeros 16⟩ = some .payloadLength := by decide

/-- Gated commands (section 2.9), with the right and with a wrong payload length: the gate comes first (R50). -/
theorem test_gated_frames :
    refusal bare ⟨0x06, zeros 8⟩ = some .gatedOff ∧ refusal bare ⟨0x06, []⟩ = some .gatedOff ∧
    refusal bare ⟨0x08, []⟩ = some .gatedOff ∧ refusal bare ⟨0x09, zeros 16⟩ = some .gatedOff ∧
    refusal bare ⟨0x18, []⟩ = some .gatedOff ∧ refusal bare ⟨0x19, zeros 32⟩ = some .gatedOff := by decide

/-- The numbering of spec/opcode_table.json: `PCG.ADVANCE 3` with all its bits; `XO.LOAD` with the command word only, its
payload then zeros. -/
theorem test_table_words :
    decodeTableWord 72 0x306 = some (.pcgAdvance 3) ∧ decodeTableWord 8 0x19 = some (.xoLoad 0 0 0 0) ∧
    decodeTableWord 8 0x07 = none := by decide

/-! ## The engines' functions -/

/-- P0: `PcgOut` at its corners. -/
theorem test_pcgOut :
    pcgOut 0 = 0 ∧ pcgOut 1 = 0 ∧ pcgOut 0xFFFFFFFFFFFFFFFF = 0xFFF00001 ∧ pcgOut 0x8000000000000000 = 4 ∧
    pcgOut 0x0800000000000000 = 0x2000 ∧ pcgOut 0xF800000008000000 = 0x000F8002 ∧
    pcgOut 0x185706B82C2E03F8 = 0xA15C02B7 := by decide

/-- X1: `XoOut` and `XoStep`; the last two rows are the shift that loses bit 63 and the order of the assignments. -/
theorem test_xo_functions :
    xoOut ⟨0, 1, 0, 0⟩ = 0x1680 ∧ xoOut ⟨0, 0x8000000000000000, 0, 0⟩ = 0x240 ∧
    xoStep ⟨1, 2, 3, 4⟩ = ⟨7, 0, 0x40002, 0xC00000000000⟩ ∧
    xoStep ⟨0, 0x8000000000000000, 0, 0⟩ = ⟨0x8000000000000000, 0x8000000000000000, 0, 0x100000000000⟩ ∧
    xoStep ⟨0, 1, 0, 0⟩ = ⟨1, 1, 0x20000, 0x200000000000⟩ := by decide

/-- P5: the trace of the loop of R75 for `delta = 5` after its three iterations. -/
theorem test_advance_loop :
    pcgAdvanceLoop 3 1 0 Config.multiplier 0x6D 5 = (0x696D29DA565AD7FD, 0xBC5BEECEBA819059) := by decide +kernel

/-- R9: a rotate by 0 is the identity; bytes and words of R26. -/
theorem test_primitives :
    rotl64 0x8000000000000001 0 = 0x8000000000000001 ∧ rotl64 0x8000000000000001 1 = 3 ∧ rotr32 0x80000001 0 = 0x80000001 ∧
    rotr32 0x80000001 1 = 0xC0000000 ∧ bytesLe64 0x0706050403020100 = upTo 8 ∧ bytesLe32 0xDEADBEEF = [0xef, 0xbe, 0xad, 0xde] ∧
    le64 (upTo 8) = 0x0706050403020100 := by decide

/-! ## One step per command (sections 2.1 to 2.8) -/

/-- P1. -/
theorem test_pcgSeed : pcgAsk (exec (.pcgSeed 42 54) State.reset) = some ([⟨.ok, []⟩], pcgP1) := by decide +kernel

/-- P2: the all-zero seed is not substituted; on a seeded engine nothing of the old instance stays. -/
theorem test_pcgSeed_zero : pcgAsk (exec (.pcgSeed 0 0) both) = some ([⟨.ok, []⟩], ⟨0x5851F42D4C957F2E, 1, true⟩) := by
  decide +kernel

/-- P6: one reply of 16 bytes. -/
theorem test_pcgSeedrng :
    pcgAsk (exec .pcgSeedrng (fromReset [.ok pcgReply])) = some ([⟨.ok, []⟩], pcgP1) ∧
    ask (exec .pcgSeedrng (fromReset [.ok pcgReply])) (fun t => (t.requests, t.entropy, t.inFlight)) = some ([16], [], none) := by
  decide +kernel

/-- P6: a failure leaves the engine as it was. -/
theorem test_pcgSeedrng_fail :
    pcgAsk (exec .pcgSeedrng { both with entropy := [.fail 7] }) = some ([⟨.entropyFail, [7, 0, 0, 0]⟩], pcgP1) := by
  decide +kernel

/-- P1, draw 1. -/
theorem test_pcgNext32 :
    pcgAsk (exec .pcgNext32 both) = some ([⟨.ok, [0xb7, 0x02, 0x5c, 0xa1]⟩], ⟨0x2B47FED88766BB05, 0x6D, true⟩) := by
  decide +kernel

/-- P3, first line. -/
theorem test_pcgNext64 :
    pcgAsk (exec .pcgNext64 both) =
      some ([⟨.ok, [0x09, 0xf4, 0x47, 0x7b, 0xb7, 0x02, 0x5c, 0xa1]⟩], ⟨0x8B33296D19BF5B4E, 0x6D, true⟩) := by
  decide +kernel

/-- P4: a partial last word. -/
theorem test_pcgFill :
    pcgAsk (exec (.pcgFill 11) both) =
      some ([⟨.ok, [0x09, 0xf4, 0x47, 0x7b, 0xb7, 0x02, 0x5c, 0xa1, 0x93, 0xf2, 0xd2]⟩],
        ⟨0xEBBF9E97AA16F694, 0x6D, true⟩) := by
  decide +kernel

/-- P4: length 0 draws nothing. -/
theorem test_pcgFill_zero : pcgAsk (exec (.pcgFill 0) both) = some ([⟨.ok, []⟩], pcgP1) := by decide +kernel

/-- P4. -/
theorem test_pcgTryfill :
    pcgAsk (exec (.pcgTryfill 8) both) =
      some ([⟨.ok, [0x09, 0xf4, 0x47, 0x7b, 0xb7, 0x02, 0x5c, 0xa1]⟩], ⟨0x8B33296D19BF5B4E, 0x6D, true⟩) := by
  decide +kernel

/-- P5, `delta = 1000`. -/
theorem test_pcgAdvance :
    pcgAsk (exec (.pcgAdvance 1000) both) = some ([⟨.ok, []⟩], ⟨0x77D57A2A8F8FC510, 0x6D, true⟩) := by decide +kernel

/-- P5, `delta = 2^64 - 1`. -/
theorem test_pcgAdvance_back :
    pcgAsk (exec (.pcgAdvance 0xFFFFFFFFFFFFFFFF) both) = some ([⟨.ok, []⟩], ⟨0x97, 0x6D, true⟩) := by decide +kernel

/-- 2.8. -/
theorem test_pcgSave :
    pcgAsk (exec .pcgSave both) =
      some ([⟨.ok, [0xf8, 0x03, 0x2e, 0x2c, 0xb8, 0x06, 0x57, 0x18, 0x6d, 0, 0, 0, 0, 0, 0, 0]⟩], pcgP1) := by
  decide +kernel

/-- 2.8: stored as given. -/
theorem test_pcgLoad : pcgAsk (exec (.pcgLoad 0 1) State.reset) = some ([⟨.ok, []⟩], ⟨0, 1, true⟩) := by decide +kernel

/-- 2.8: an even `inc` is refused. -/
theorem test_pcgLoad_even :
    pcgAsk (exec (.pcgLoad 0x185706B82C2E03F8 0x6C) both) = some ([⟨.badState, []⟩], pcgP1) := by decide +kernel

/-- 2.8. -/
theorem test_pcgStat :
    responsesOf (exec .pcgStat State.reset) = some [⟨.ok, [0]⟩] ∧ responsesOf (exec .pcgStat both) = some [⟨.ok, [1]⟩] := by
  decide

/-- S1. -/
theorem test_xoSeed :
    xoAsk (exec (.xoSeed 0x0706050403020100 0x0F0E0D0C0B0A0908 0x1716151413121110 0x1F1E1D1C1B1A1918) State.reset) =
      some ([⟨.ok, []⟩], ⟨sA, true⟩) := by decide +kernel

/-- X4: the all-zero seed; X4b: a seed with one bit set is kept. -/
theorem test_xoSeed_zero :
    xoAsk (exec (.xoSeed 0 0 0 0) both) = some ([⟨.ok, []⟩],
      ⟨⟨0xE220A8397B1DCDAF, 0x6E789E6AA1B965F4, 0x06C45D188009454F, 0xF88BB8A8724C81EC⟩, true⟩) ∧
    xoAsk (exec (.xoSeed 0 0 0 0x8000000000000000) both) =
      some ([⟨.ok, []⟩], ⟨⟨0, 0, 0, 0x8000000000000000⟩, true⟩) := by decide +kernel

/-- X4c, row 2: one re-draw. -/
theorem test_xoSeedrng :
    xoAsk (exec .xoSeedrng (fromReset [.ok zeroReply, .ok seedReply])) = some ([⟨.ok, []⟩], ⟨sA, true⟩) ∧
    ask (exec .xoSeedrng (fromReset [.ok zeroReply, .ok seedReply])) (fun t => (t.requests, t.inFlight)) =
      some ([32, 32], none) := by decide +kernel

/-- X4c, row 5: a failure after a re-draw leaves the engine as it was. -/
theorem test_xoSeedrng_fail :
    xoAsk (exec .xoSeedrng { both with entropy := [.ok zeroReply, .fail 0xDEADBEEF] }) =
      some ([⟨.entropyFail, [0xef, 0xbe, 0xad, 0xde]⟩], ⟨sA, true⟩) := by decide +kernel

/-- X5. -/
theorem test_xoNext32 :
    xoAsk (exec .xoNext32 both) = some ([⟨.ok, [0x4d, 0x35, 0xcb, 0x61]⟩], ⟨sA1, true⟩) := by decide +kernel

/-- X2, draw 1. -/
theorem test_xoNext64 :
    xoAsk (exec .xoNext64 both) =
      some ([⟨.ok, [0x4d, 0x35, 0xcb, 0x61, 0xf8, 0x8e, 0x25, 0xbc]⟩], ⟨sA1, true⟩) := by decide +kernel

/-- X5: a partial last word. -/
theorem test_xoFill :
    xoAsk (exec (.xoFill 13) both) =
      some ([⟨.ok, [0x4d, 0x35, 0xcb, 0x61, 0xf8, 0x8e, 0x25, 0xbc, 0xb5, 0x9e, 0x34, 0xcb, 0x61]⟩], ⟨sA2, true⟩) := by
  decide +kernel

/-- X5. -/
theorem test_xoTryfill :
    xoAsk (exec (.xoTryfill 8) both) =
      some ([⟨.ok, [0x4d, 0x35, 0xcb, 0x61, 0xf8, 0x8e, 0x25, 0xbc]⟩], ⟨sA1, true⟩) := by decide +kernel

/-- S2: the source's literal jump. -/
theorem test_xoJump :
    xoAsk (exec .xoJump both) = some ([⟨.ok, []⟩],
      ⟨⟨0x9E66D20F60DA5F59, 0x289C63AA1E4AF1F3, 0x106D456FABAE1AFA, 0xA5488B077A9B21AA⟩, true⟩) := by decide +kernel

/-- X7: the jump after two draws. -/
theorem test_xoJump_after_draws :
    xoJump sA2 = ⟨0x8F2EFFD24C2097CA, 0xFC7A659DF9A77EF3, 0xB3783B2A4439CAA3, 0x6319539398AE0905⟩ := by decide +kernel

/-- 2.8. -/
theorem test_xoSave : xoAsk (exec .xoSave both) = some ([⟨.ok, upTo 32⟩], ⟨sA, true⟩) := by decide +kernel

/-- 2.8. -/
theorem test_xoLoad :
    xoAsk (exec (.xoLoad 0x0706050403020100 0x0F0E0D0C0B0A0908 0x1716151413121110 0x1F1E1D1C1B1A1918) State.reset) =
      some ([⟨.ok, []⟩], ⟨sA, true⟩) := by decide +kernel

/-- 2.8: the all-zero image is refused, not substituted. -/
theorem test_xoLoad_zero : xoAsk (exec (.xoLoad 0 0 0 0) both) = some ([⟨.badState, []⟩], ⟨sA, true⟩) := by decide +kernel

/-- 2.8. -/
theorem test_xoStat :
    responsesOf (exec .xoStat State.reset) = some [⟨.ok, [0]⟩] ∧ responsesOf (exec .xoStat both) = some [⟨.ok, [1]⟩] := by
  decide

/-! ## Statuses, the port and reset -/

/-- Section 2.9: on unseeded engines. -/
theorem test_not_seeded :
    responsesOf (exec .pcgNext32 State.reset) = some [⟨.notSeeded, []⟩] ∧
    responsesOf (exec (.pcgTryfill 0) State.reset) = some [⟨.notSeeded, []⟩] ∧
    responsesOf (exec (.pcgAdvance 1) State.reset) = some [⟨.notSeeded, []⟩] ∧
    responsesOf (exec .xoJump State.reset) = some [⟨.notSeeded, []⟩] ∧
    responsesOf (exec .xoSave State.reset) = some [⟨.notSeeded, []⟩] := by decide

/-- R100: the codes, in a response frame as bytes (section 2.8 and 2.9). -/
theorem test_response_bytes :
    Response.bytes ⟨.ok, [1]⟩ = [0x00, 0x01] ∧ Response.bytes ⟨.illegalCmd, []⟩ = [0x02] ∧
    Response.bytes ⟨.notSeeded, []⟩ = [0x03] ∧ Response.bytes ⟨.badState, []⟩ = [0x04] ∧
    Response.bytes ⟨.entropyFail, bytesLe32 7⟩ = [0x01, 0x07, 0, 0, 0] := by decide

/-- R105: a wrong length on an unseeded engine is `ILLEGAL_CMD`. -/
theorem test_step_illegal :
    ask (step { State.reset with hostEvents := [.frame ⟨0x04, 7 :: zeros 6⟩, .reset] })
      (fun t => (t.responses, t.hostEvents)) = some ([⟨.illegalCmd, []⟩], [.reset]) := by decide

/-- A frame presented to the idle block is run by the next step. -/
theorem test_step_frame :
    pcgAsk (step { both with hostEvents := [.frame ⟨0x02, []⟩] }) =
      some ([⟨.ok, [0xb7, 0x02, 0x5c, 0xa1]⟩], ⟨0x2B47FED88766BB05, 0x6D, true⟩) := by decide +kernel

/-- The table word of `PCG.STAT` placed with `withFetchWord` runs as the first command after reset. -/
theorem test_withFetchWord : responsesOf (step (State.reset.withFetchWord 8 0x0A)) = some [⟨.ok, [0]⟩] := by decide

/-- R112: reset clears both flags, gives no response and abandons a command in progress. -/
theorem test_reset :
    ask (step { both with hostEvents := [.reset], inFlight := some .xoSeedrng })
      (fun t => (t.pcg.seeded, t.xo.seeded, t.responses, t.inFlight)) = some (false, false, [], none) := by decide

/-- R62: `SEEDRNG` waits for its reply, makes no second request for it, and then completes. -/
theorem test_wait :
    ask (exec .xoSeedrng (fromReset [.notYet, .ok seedReply])) (fun t => (t.inFlight, t.requests, t.responses)) =
      some (some .xoSeedrng, [32], []) ∧
    ask (step { State.reset with inFlight := some .xoSeedrng, requests := [32], entropy := [.ok seedReply] })
      (fun t => (t.inFlight, t.requests, t.responses, t.xo)) = some (none, [32], [⟨.ok, []⟩], ⟨sA, true⟩) := by
  decide +kernel

/-- R121: behind a `SEEDRNG` that hangs no command responds, here on no reply and on one of zeros (X4c, last row). -/
theorem test_run_hangs :
    ask (execAll [.xoSeedrng, .xoStat] (fromReset [])) (fun t => (t.responses, t.inFlight)) = some ([], some .xoSeedrng) ∧
    ask (execAll [.pcgStat, .xoSeedrng, .xoStat] (fromReset [.ok zeroReply, .notYet])) (fun t => (t.responses, t.inFlight)) =
      some ([⟨.ok, [0]⟩], some .xoSeedrng) := by decide +kernel

/-- R115, R121: the host waits for the response of a `SEEDRNG`, and the run goes on behind it. -/
theorem test_run_waits :
    ask (execAll [.xoSeedrng, .xoStat] (fromReset [.ok zeroReply, .notYet, .notYet, .ok seedReply]))
      (fun t => (t.responses, t.requests, t.xo)) = some ([⟨.ok, []⟩, ⟨.ok, [1]⟩], [32, 32], ⟨sA, true⟩) := by decide +kernel

/-- R48, R49: lines of section 3 and a malformed one. -/
theorem test_assemble :
    assembleLine "PCG.SEEDW 42, 54" = some ⟨0x00, 0x2a#8 :: zeros 7 ++ 0x36#8 :: zeros 7⟩ ∧
    assembleLine "PCG.ADVANCE 0x3 ; skip" = some ⟨0x06, 3 :: zeros 7⟩ ∧
    assembleLine "XO.NEXT64   -> OK 13557399450712487245" = some ⟨0x13, []⟩ ∧
    assembleLine "PCG.SEEDRNG <- Fail(7)" = some ⟨0x01, []⟩ ∧
    assembleLine "PCG.LOAD h\"f8032e2cb8065718 6c00000000000000\"" =
      some ⟨0x09, [0xf8, 0x03, 0x2e, 0x2c, 0xb8, 0x06, 0x57, 0x18] ++ 0x6c#8 :: zeros 7⟩ ∧
    assembleLine "XO.ADVANCE 3" = none := by decide +kernel

/-! ## Witnesses: for every obligation with hypotheses, concrete data that meet them together, clause by clause -/

/-- Both engines seeded, the block idle, one frame presented. -/
def presented (f : Frame) : State := { both with hostEvents := [.frame f] }

/-- The block as `reset` leaves it, in a build without the gated commands. -/
def bareReset : State := { State.reset with params := bare }

theorem witness_DecodeReadsEveryEncoding :
    Instr.wf Config.defaultParams (.xoLoad 0 0 0 0xFFFFFFFFFFFFFFFF) = true ∧ Instr.wf bare (.pcgFill 0) = true := by decide

theorem witness_DecodedFrameIsItsEncoding :
    decode Config.defaultParams ⟨0x06, upTo 8⟩ = .ok (.pcgAdvance 0x0706050403020100) ∧
    decode bare ⟨0x1A, []⟩ = .ok .xoStat := ⟨rfl, rfl⟩

theorem witness_IllegalFramesAndTheirAnswer :
    decode Config.defaultParams ⟨0x0A, []⟩ = .ok .pcgStat ∧ decode Config.defaultParams ⟨0x0B, []⟩ = .error .reservedOp ∧
    decode Config.defaultParams ⟨0x3A, []⟩ = .error .reservedBits ∧ decode bare ⟨0x18, []⟩ = .error .gatedOff ∧
    decode Config.defaultParams ⟨0x18, [0]⟩ = .error .payloadLength ∧
    (presented ⟨0x16, []⟩).Presents ⟨0x16, []⟩ [] ∧
    decode (presented ⟨0x16, []⟩).params ⟨0x16, []⟩ = .error .wrongEngine ∧
    Config.defaultParams.hasPcgAdvance = true ∧ Config.defaultParams.hasPersist = true :=
  ⟨rfl, rfl, rfl, rfl, rfl, ⟨rfl, rfl⟩, rfl, rfl, rfl⟩

theorem witness_GatesAreFixed :
    bare.hasPcgAdvance = false ∧ bare.hasPersist = false ∧ (0x19#8) ∈ [0x08#8, 0x09#8, 0x18#8, 0x19#8] ∧
    ∃ t, step both = .next t := ⟨rfl, rfl, by decide, _, rfl⟩

theorem witness_StepRunsDecodedCommand :
    (presented ⟨0x17, []⟩).Presents ⟨0x17, []⟩ [] ∧ decode (presented ⟨0x17, []⟩).params ⟨0x17, []⟩ = .ok .xoJump :=
  ⟨⟨rfl, rfl⟩, rfl⟩

theorem witness_ResetEvent :
    (∃ s : State, s.hostEvents = .reset :: [.reset] ∧ s.inFlight = some .xoSeedrng ∧ s.pcg.seeded = true) ∧
    (∃ s t : State, (∀ rest, s.hostEvents ≠ .reset :: rest) ∧ step s = .next t ∧ s.pcg.seeded = true ∧ s.xo.seeded = true) ∧
    (∃ s : State, s.inFlight = none ∧ s.hostEvents = []) :=
  ⟨⟨{ both with hostEvents := [.reset, .reset], inFlight := some .xoSeedrng }, rfl, rfl, rfl⟩,
   ⟨presented ⟨0x0A, []⟩, _, (fun _ h => by cases h), rfl, rfl, rfl⟩, ⟨State.reset, rfl, rfl⟩⟩

/-- The command stays in progress, or ends. -/
theorem witness_BusyBlockAcceptsNoFrame :
    (∃ s t : State, s.inFlight = some .pcgSeedrng ∧ s.hostEvents = .frame ⟨0x02, []⟩ :: [] ∧ step s = .next t ∧
      t.inFlight = some .pcgSeedrng) ∧
    (∃ s t : State, s.inFlight = some .xoSeedrng ∧ s.hostEvents = .frame ⟨0x02, []⟩ :: [] ∧ step s = .next t ∧
      t.inFlight = none) :=
  ⟨⟨{ presented ⟨0x02, []⟩ with inFlight := some .pcgSeedrng }, _, rfl, rfl, rfl, rfl⟩,
   ⟨{ presented ⟨0x02, []⟩ with inFlight := some .xoSeedrng, entropy := [.fail 7] }, _, rfl, rfl, rfl, rfl⟩⟩

theorem witness_FrameGetsOneResponse :
    (presented ⟨0x02, []⟩).Presents ⟨0x02, []⟩ [] ∧ (presented ⟨0x11, []⟩).Presents ⟨0x11, []⟩ [] :=
  ⟨⟨rfl, rfl⟩, ⟨rfl, rfl⟩⟩

theorem witness_UnseededEngineAnswersNotSeeded :
    Instr.wf State.reset.params (.pcgAdvance 0) = true ∧ (Instr.pcgAdvance 0).command.needsInstance = true ∧
    State.reset.seededFor (Instr.pcgAdvance 0).command = false ∧
    Instr.wf bareReset.params .xoJump = true ∧ Instr.xoJump.command.needsInstance = true ∧
    bareReset.seededFor Instr.xoJump.command = false := ⟨rfl, rfl, rfl, rfl, rfl, rfl⟩

/-- An illegal frame, and a failure of the entropy source. -/
theorem witness_NonOkStatusCancelsEveryWrite :
    (∃ t, step (presented ⟨0x07, []⟩) = .next t ∧ t.responses = both.responses ++ [⟨.illegalCmd, []⟩]) ∧
    (∃ t, step { presented ⟨0x01, []⟩ with entropy := [.fail 7] } = .next t ∧
      t.responses = both.responses ++ [⟨.entropyFail, bytesLe32 7⟩]) ∧
    Status.illegalCmd ≠ .ok ∧ Status.entropyFail ≠ .ok :=
  ⟨⟨_, rfl, rfl⟩, ⟨_, rfl, rfl⟩, by decide, by decide⟩

/-- One frame for each branch: illegal, not seeded, a bad image, `OK`, a failed draw. -/
theorem witness_StatusPriority :
    (∃ t, (presented ⟨0x07, []⟩).Presents ⟨0x07, []⟩ [] ∧ step (presented ⟨0x07, []⟩) = .next t ∧
      t.responses = both.responses ++ [⟨.illegalCmd, []⟩]) ∧
    (∃ t, step { State.reset with hostEvents := [.frame ⟨0x02, []⟩] } = .next t ∧
      t.responses = State.reset.responses ++ [⟨.notSeeded, []⟩]) ∧
    (∃ t, step (presented ⟨0x09, zeros 16⟩) = .next t ∧ t.responses = both.responses ++ [⟨.badState, []⟩]) ∧
    (∃ t, step (presented ⟨0x0A, []⟩) = .next t ∧ t.responses = both.responses ++ [⟨.ok, [0x01]⟩]) ∧
    (∃ t, step { presented ⟨0x01, []⟩ with entropy := [.fail 7] } = .next t ∧
      t.responses = both.responses ++ [⟨.entropyFail, bytesLe32 7⟩]) :=
  ⟨⟨_, ⟨rfl, rfl⟩, rfl, rfl⟩, ⟨_, rfl, rfl⟩, ⟨_, rfl, rfl⟩, ⟨_, rfl, rfl⟩, ⟨_, rfl, rfl⟩⟩

theorem witness_ResponsePayloadLengths :
    (∃ t, exec .pcgStat both = .next t ∧ t.responses = both.responses ++ [⟨.ok, [0x01]⟩]) ∧
    (∃ t, exec .pcgSeedrng { both with entropy := [.fail 7] } = .next t ∧
      t.responses = both.responses ++ [⟨.entropyFail, bytesLe32 7⟩]) ∧
    (∃ t, exec .xoNext64 State.reset = .next t ∧ t.responses = State.reset.responses ++ [⟨.notSeeded, []⟩]) :=
  ⟨⟨_, rfl, rfl⟩, ⟨_, rfl, rfl⟩, ⟨_, rfl, rfl⟩⟩

theorem witness_ResetLeavesBothUnseeded :
    Instr.wf State.reset.params .pcgSave = true ∧ Instr.pcgSave.command.needsInstance = true ∧
    Instr.wf State.reset.params (.xoFill 0) = true ∧ (Instr.xoFill 0).command.needsInstance = true := by decide

theorem witness_PcgSeedBuildsClosedForm : (upTo 16).length = 16 := by decide

theorem witness_PcgSeedrngAnswers :
    (fromReset [.ok pcgReply]).entropy = .ok pcgReply :: [] ∧ (fromReset [.fail 7, .notYet]).entropy = .fail 7 :: [.notYet] ∧
    (fromReset []).entropy = [] ∧ (fromReset [.notYet, .fail 7]).entropy = .notYet :: [.fail 7] := ⟨rfl, rfl, rfl, rfl⟩

theorem witness_WaitingCommandTakesItsReply :
    (∃ s u : State, s.inFlight = some .pcgSeedrng ∧ (∀ rest, s.hostEvents ≠ .reset :: rest) ∧
      exec .pcgSeedrng s = .next u ∧ u.responses = s.responses ++ [⟨.ok, []⟩]) ∧
    (∃ s u : State, s.inFlight = some .xoSeedrng ∧ (∀ rest, s.hostEvents ≠ .reset :: rest) ∧
      exec .xoSeedrng s = .next u ∧ u.requests = s.requests ++ [32, 32]) :=
  ⟨⟨{ fromReset [.ok pcgReply] with inFlight := some .pcgSeedrng }, _, rfl, (fun _ h => by cases h), rfl, rfl⟩,
   ⟨{ fromReset [.ok zeroReply, .fail 7] with inFlight := some .xoSeedrng }, _, rfl, (fun _ h => by cases h), rfl, rfl⟩⟩

/-- `PcgNext32Draw`, `PcgNext64IsTwoDraws`, `XoNextDraws`, `XoJumpIsTwoPow128Steps`: seeded and unseeded. -/
theorem witness_seeded_clauses :
    both.pcg.seeded = true ∧ both.xo.seeded = true ∧ State.reset.pcg.seeded = false ∧ State.reset.xo.seeded = false :=
  ⟨rfl, rfl, rfl, rfl⟩

/-- `PcgFillBytes` and `XoFillBytes`, whose last clauses are those of `witness_seeded_clauses`. -/
theorem witness_fill_frames :
    (zeros 8).length = 8 ∧ Instr.pcgTryfill 0 ∈ [Instr.pcgFill 0, Instr.pcgTryfill 0] ∧
    Instr.xoFill 0xFFFFFFFFFFFFFFFF ∈ [Instr.xoFill 0xFFFFFFFFFFFFFFFF, Instr.xoTryfill 0xFFFFFFFFFFFFFFFF] := by decide

theorem witness_PcgAdvanceIsDeltaSteps :
    Config.defaultParams.hasPcgAdvance = true ∧ (zeros 8).length = 8 ∧
    (both.params.hasPcgAdvance = true ∧ both.pcg.seeded = true) ∧
    (State.reset.params.hasPcgAdvance = true ∧ State.reset.pcg.seeded = false) ∧ bareReset.params.hasPcgAdvance = false :=
  ⟨rfl, rfl, ⟨rfl, rfl⟩, ⟨rfl, rfl⟩, rfl⟩

theorem witness_PcgPeriodIsExactly :
    (1 : Word).getLsbD 0 = true ∧ (0xFFFFFFFFFFFFFFFF : Word).getLsbD 0 = true ∧ 0 < 1 ∧ 2 ^ 64 - 1 < 2 ^ 64 := by decide

/-- `PcgSaveShowsTheWords` and `XoSaveShowsTheWords`. -/
theorem witness_save_clauses :
    Config.defaultParams.hasPersist = true ∧ (both.params.hasPersist = true ∧ both.pcg.seeded = true ∧ both.xo.seeded = true) ∧
    (State.reset.params.hasPersist = true ∧ State.reset.pcg.seeded = false ∧ State.reset.xo.seeded = false) ∧
    bareReset.params.hasPersist = false := ⟨rfl, ⟨rfl, rfl, rfl⟩, ⟨rfl, rfl, rfl⟩, rfl⟩

theorem witness_PcgLoadStoresOrRefuses :
    (Config.defaultParams.hasPersist = true ∧ (upTo 16).length = 16) ∧
    (State.reset.params.hasPersist = true ∧ (1 : Word).toNat % 2 = 1 ∧ (0xFFFFFFFFFFFFFFFF : Word).toNat % 2 = 1) ∧
    (State.reset.params.hasPersist = true ∧ (0 : Word).toNat % 2 = 0 ∧ (0xFFFFFFFFFFFFFFFE : Word).toNat % 2 = 0) ∧
    bareReset.params.hasPersist = false := by decide

/-- A command that does not construct, one that does, and one that is turned away. -/
theorem witness_IncIsWrittenByConstructionOnly :
    (∃ t, exec .pcgStat both = .next t ∧ (Instr.pcgStat.command.constructs && Instr.pcgStat.command.onPcg) = false) ∧
    (∃ t, exec (.pcgLoad 0 1) both = .next t ∧ t.responses = both.responses ++ [⟨.ok, []⟩] ∧
      ((Instr.pcgLoad 0 1).command.constructs && (Instr.pcgLoad 0 1).command.onPcg) = true) ∧
    (∃ t, exec (.pcgLoad 0 2) both = .next t ∧ t.responses = both.responses ++ [⟨.badState, []⟩]) ∧
    both.PcgIncOdd := ⟨⟨_, rfl, rfl⟩, ⟨_, rfl, rfl, rfl⟩, ⟨_, rfl, rfl⟩, by decide⟩

theorem witness_XoOutIsABijectionOfS1 : ∃ (x : Word) (w : XoWords), w.s1 = x := ⟨7, ⟨1, 7, 3, 4⟩, rfl⟩

/-- `XoStepIsALinearBijection` and `XoJumpIsALinearBijection`. -/
theorem witness_nonzero_words : sA ≠ xoZero ∧ (⟨0, 0, 0, 0x8000000000000000⟩ : XoWords) ≠ xoZero := by decide

theorem witness_XoSeedKeepsOrSubstitutes :
    (upTo 32).length = 32 ∧ ((0 : Word) = 0#64 ∧ (0 : Word) = 0#64 ∧ (0 : Word) = 0#64 ∧ (0 : Word) = 0#64) ∧
    ¬((0 : Word) = 0#64 ∧ (0 : Word) = 0#64 ∧ (0 : Word) = 0#64 ∧ (1 : Word) = 0#64) := by decide

/-- `ZeroSeedIsSafe` and `CoincidingSeeds`: the parameters of the test vectors are admissible, and so are others. -/
theorem witness_admissible :
    both.params.Admissible ∧ ({ bare with z0 := 0, z1 := 2, z2 := 1, z3 := 0 } : Params).Admissible := by decide

theorem zeroReply_bytes : ∀ x ∈ zeroReply.toList, x = 0#8 := by decide

theorem seedReply_bytes : ∃ x ∈ seedReply.toList, x ≠ 0#8 := ⟨1#8, by decide, by decide⟩

/-- No all-zero reply before, or two of them; then a good reply, a failure, the end of the list, a wait. -/
theorem witness_XoSeedrngRedraws :
    (∀ z ∈ [zeroReply, zeroReply], ∀ x ∈ z.toList, x = 0#8) ∧ (∃ x ∈ seedReply.toList, x ≠ 0#8) ∧
    (fromReset [.ok zeroReply, .ok zeroReply, .ok seedReply]).entropy =
      [zeroReply, zeroReply].map .ok ++ .ok seedReply :: [] ∧
    (fromReset [.ok seedReply]).entropy = [].map .ok ++ .ok seedReply :: [] ∧
    (fromReset [.ok zeroReply, .ok zeroReply, .fail 7]).entropy = [zeroReply, zeroReply].map .ok ++ .fail 7 :: [] ∧
    (fromReset [.ok zeroReply, .ok zeroReply]).entropy = [zeroReply, zeroReply].map .ok ∧
    (fromReset [.ok zeroReply, .ok zeroReply, .notYet]).entropy = [zeroReply, zeroReply].map .ok ++ .notYet :: [] := by
  refine ⟨?_, seedReply_bytes, rfl, rfl, rfl, rfl, rfl⟩
  intro z hz
  simp only [List.mem_cons, List.not_mem_nil, or_false, or_self] at hz
  subst hz
  exact zeroReply_bytes

theorem witness_XoSeedrngMayNeverEnd :
    (∃ s : State, s.inFlight = some .xoSeedrng ∧
      (∀ ev ∈ s.entropy, ev = .notYet ∨ ∃ z, ev = .ok z ∧ ∀ x ∈ z.toList, x = 0#8) ∧ s.entropy.length = 2 ∧
      ∀ rest, s.hostEvents ≠ .reset :: rest) ∧
    (∃ s : State, s.inFlight = some .xoSeedrng ∧
      (∀ ev ∈ s.entropy, ev = .notYet ∨ ∃ z, ev = .ok z ∧ ∀ x ∈ z.toList, x = 0#8) ∧ s.hostEvents = .reset :: []) := by
  refine ⟨⟨{ fromReset [.ok zeroReply, .notYet] with inFlight := some .xoSeedrng }, rfl, ?_, rfl, fun _ h => by cases h⟩,
    ⟨{ fromReset [] with inFlight := some .xoSeedrng, hostEvents := [.reset] }, rfl, (fun _ h => by cases h), rfl⟩⟩
  intro ev hev
  simp only [fromReset, List.mem_cons, List.not_mem_nil, or_false] at hev
  rcases hev with rfl | rfl
  · exact .inr ⟨zeroReply, rfl, zeroReply_bytes⟩
  · exact .inl rfl

theorem witness_XoLoadStoresOrRefuses :
    (Config.defaultParams.hasPersist = true ∧ (upTo 32).length = 32) ∧
    (State.reset.params.hasPersist = true ∧ ¬((0 : Word) = 0#64 ∧ (0 : Word) = 0#64 ∧ (0 : Word) = 0#64 ∧ (1 : Word) = 0#64)) ∧
    (State.reset.params.hasPersist = true ∧ (0 : Word) = 0#64) ∧ bareReset.params.hasPersist = false := by decide

theorem witness_InvKeptByEveryStep : (presented ⟨0x17, []⟩).Inv ∧ ∃ t, step (presented ⟨0x17, []⟩) = .next t :=
  ⟨by decide, _, rfl⟩

theorem witness_EnginesAreIndependent :
    (Instr.pcgNext32.command.onPcg = true ∧ ∃ t, exec .pcgNext32 both = .next t) ∧
    (Instr.xoStat.command.onPcg = false ∧ ∃ t, exec .xoStat both = .next t) := ⟨⟨rfl, _, rfl⟩, ⟨rfl, _, rfl⟩⟩

theorem witness_PcgAndXoCommandsCommute :
    (Instr.pcgFill 9).command.onPcg = true ∧ Instr.xoJump.command.onPcg = false ∧
    (Instr.pcgFill 9).command.drawsEntropy = false ∧ Instr.xoJump.command.drawsEntropy = false := by decide

/-- Two states that differ in the state words of an unseeded engine, and a step of one of them. -/
theorem witness_ResetWordsAreUnobservable :
    ∃ a b ta : State, SameWhereSeeded a b ∧ a ≠ b ∧ core.run 1 a = .next ta ∧ ta.responses = [⟨.notSeeded, []⟩] :=
  ⟨{ State.reset with pcg := ⟨1, 1, false⟩, hostEvents := [.frame ⟨0x02, []⟩] },
   { State.reset with pcg := ⟨2, 1, false⟩, hostEvents := [.frame ⟨0x02, []⟩] }, _,
   ⟨rfl, rfl, (fun h => by cases h), rfl, fun _ => rfl⟩, (fun h => absurd (congrArg (fun s => s.pcg.state) h) (by decide)),
   rfl, rfl⟩

theorem witness_ConstructionForgetsTheOldInstance :
    ((Instr.pcgLoad 0 1).command.constructs = true ∧ (Instr.pcgLoad 0 1).command.onPcg = true ∧
      ∃ t, exec (.pcgLoad 0 1) both = .next t ∧ t.responses = both.responses ++ [⟨.ok, []⟩]) ∧
    ((Instr.xoSeed 1 2 3 4).command.constructs = true ∧ (Instr.xoSeed 1 2 3 4).command.onPcg = false ∧
      ∃ t, exec (.xoSeed 1 2 3 4) both = .next t ∧ t.responses = both.responses ++ [⟨.ok, []⟩]) :=
  ⟨⟨rfl, rfl, _, rfl, rfl⟩, ⟨rfl, rfl, _, rfl, rfl⟩⟩

/-- Two blocks that differ in what they have answered before. -/
theorem witness_EqualEnginesAnswerEqually :
    ∃ a b : State, a ≠ b ∧ a.pcg = b.pcg ∧ a.xo = b.xo ∧ a.params = b.params ∧ a.entropy = b.entropy :=
  ⟨both, { both with responses := [⟨.ok, []⟩] }, (fun h => absurd (congrArg State.responses h) (by decide)),
    rfl, rfl, rfl, rfl⟩

theorem witness_SaveThenLoadClones :
    (both.params.hasPersist = true ∧ both.pcg.seeded = true ∧ both.PcgIncOdd ∧ both.xo.seeded = true ∧ both.XoNonzero) ∧
    (presented ⟨0x09, bytesLe64 pcgP1.state ++ bytesLe64 pcgP1.inc⟩).params.hasPersist = true ∧
    (presented ⟨0x09, bytesLe64 pcgP1.state ++ bytesLe64 pcgP1.inc⟩).Presents
      ⟨0x09, bytesLe64 pcgP1.state ++ bytesLe64 pcgP1.inc⟩ [] ∧
    (presented ⟨0x19, upTo 32⟩).Presents ⟨0x19, upTo 32⟩ [] := by
  refine ⟨⟨rfl, rfl, by decide, rfl, by decide⟩, rfl, ⟨rfl, rfl⟩, ⟨rfl, rfl⟩⟩

theorem witness_IdleCommandsChangeNothing :
    Instr.pcgSave ∈ [Instr.pcgSave, .xoSave, .pcgStat, .xoStat, .pcgFill 0, .pcgTryfill 0, .xoFill 0, .xoTryfill 0,
      .pcgAdvance 0] := by decide

theorem witness_RunIsStepsOfItsFrames : State.reset.inFlight = none ∧ both.inFlight = none := ⟨rfl, rfl⟩

theorem witness_HungRunHasNoFurtherResponses :
    (∀ ev ∈ (fromReset [.ok zeroReply, .notYet]).entropy, ev = .notYet ∨ ∃ z, ev = .ok z ∧ ∀ x ∈ z.toList, x = 0#8) ∧
    (∀ ev ∈ (fromReset [.notYet, .notYet]).entropy, ev = .notYet) := by
  refine ⟨?_, by decide⟩
  intro ev hev
  simp only [fromReset, List.mem_cons, List.not_mem_nil, or_false] at hev
  rcases hev with rfl | rfl
  · exact .inr ⟨zeroReply, rfl, zeroReply_bytes⟩
  · exact .inl rfl

end Sys2Proof.Tests
end

/-! # The two engines are independent (spec/00_scope.md R2)

Replacing one engine commutes with every command addressed to the other one. That one equation says both halves of R2: the
command reads nothing of the replaced engine, and, with the engine replaced by itself, it writes nothing of it. -/

namespace Sys2Proof.Machine

/-- The block with another XO engine in its place. -/
def withXo (e : XoEngine) (s : State) : State := { s with xo := e }

/-- The block with another PCG engine in its place. -/
def withPcg (e : PcgEngine) (s : State) : State := { s with pcg := e }

@[simp] theorem withXo_xo (e : XoEngine) (s : State) : (withXo e s).xo = e := rfl

@[simp] theorem withPcg_pcg (e : PcgEngine) (s : State) : (withPcg e s).pcg = e := rfl

@[simp] theorem withXo_self (s : State) : withXo s.xo s = s := rfl

@[simp] theorem withPcg_self (s : State) : withPcg s.pcg s = s := rfl

/-- Change the next state by `g`; a fault or a refusal stays as it is. -/
def mapNext (g : State → State) (r : Result) : Result := andThen r fun t => .next (g t)

@[simp] theorem mapNext_next (g : State → State) (t : State) : mapNext g (.next t) = .next (g t) := rfl

/-! ## The two checks commute with a change that responding does not see -/

section Checks

variable {g : State → State} (hg : ∀ st q s, respond st q (g s) = g (respond st q s))
include hg

theorem requireSeeded_mapNext {b : Bool} {s : State} {body body' : Result} (hbody : body' = mapNext g body) :
    requireSeeded b (g s) body' = mapNext g (requireSeeded b s body) := by
  cases b with
  | false => simp [requireSeeded_of_unseeded, hg]
  | true => simpa [requireSeeded_of_seeded] using hbody

theorem requirePresent_mapNext {b : Bool} {s : State} {body body' : Result} (hbody : body' = mapNext g body) :
    requirePresent b (g s) body' = mapNext g (requirePresent b s body) := by
  cases b with
  | false => simp [requirePresent_of_absent, hg]
  | true => simpa [requirePresent_of_present] using hbody

end Checks

theorem respond_withXo (e : XoEngine) (st : Status) (q : List Byte) (s : State) :
    respond st q (withXo e s) = withXo e (respond st q s) := rfl

theorem respond_withPcg (e : PcgEngine) (st : Status) (q : List Byte) (s : State) :
    respond st q (withPcg e s) = withPcg e (respond st q s) := rfl

/-! ## PCG commands and the XO engine -/

theorem awaitPcgSeed_withXo (e : XoEngine) (s : State) :
    awaitPcgSeed (withXo e s) = mapNext (withXo e) (awaitPcgSeed s) := by
  obtain ⟨pcg, xo, params, inFlight, hostEvents, entropy, responses, requests, freeIndex⟩ := s
  match entropy with
  | [] => rfl
  | .notYet :: _ => rfl
  | .fail _ :: _ => rfl
  | .ok _ :: _ => rfl

theorem fillPcg_withXo (e : XoEngine) (len : Word) (s : State) :
    fillPcg len (withXo e s) = mapNext (withXo e) (fillPcg len s) :=
  requireSeeded_mapNext (respond_withXo e) rfl

theorem execPcgAdvance_withXo (e : XoEngine) (delta : Word) (s : State) :
    execPcgAdvance delta (withXo e s) = mapNext (withXo e) (execPcgAdvance delta s) :=
  requirePresent_mapNext (respond_withXo e) (requireSeeded_mapNext (respond_withXo e) rfl)

theorem execPcgSave_withXo (e : XoEngine) (s : State) :
    execPcgSave (withXo e s) = mapNext (withXo e) (execPcgSave s) :=
  requirePresent_mapNext (respond_withXo e) (requireSeeded_mapNext (respond_withXo e) rfl)

theorem execPcgLoad_withXo (e : XoEngine) (st ic : Word) (s : State) :
    execPcgLoad st ic (withXo e s) = mapNext (withXo e) (execPcgLoad st ic s) :=
  requirePresent_mapNext (respond_withXo e) (by split <;> rfl)

/-- A PCG command goes on unchanged when the XO engine is replaced. -/
theorem exec_withXo {i : Instr} (hi : i.command.onPcg = true) (e : XoEngine) (s : State) :
    exec i (withXo e s) = mapNext (withXo e) (exec i s) := by
  cases i with
  | pcgSeed seed seq => rfl
  | pcgSeedrng => exact awaitPcgSeed_withXo e (request 16 s)
  | pcgNext32 => exact requireSeeded_mapNext (respond_withXo e) rfl
  | pcgNext64 => exact requireSeeded_mapNext (respond_withXo e) rfl
  | pcgFill len => exact fillPcg_withXo e len s
  | pcgTryfill len => exact fillPcg_withXo e len s
  | pcgAdvance delta => exact execPcgAdvance_withXo e delta s
  | pcgSave => exact execPcgSave_withXo e s
  | pcgLoad st ic => exact execPcgLoad_withXo e st ic s
  | pcgStat => rfl
  | xoSeed | xoSeedrng | xoNext32 | xoNext64 | xoFill | xoTryfill | xoJump | xoSave | xoLoad | xoStat => cases hi

/-! ## XO commands and the PCG engine -/

theorem awaitXoSeed_withPcg (e : PcgEngine) (s : State) :
    awaitXoSeed (withPcg e s) = mapNext (withPcg e) (awaitXoSeed s) := by
  have hent : (withPcg e s).entropy = s.entropy := rfl
  unfold awaitXoSeed
  rw [hent]
  obtain ⟨stop, further, rest⟩ := xoSeedLoop s.entropy
  cases stop with
  | waiting => rfl
  | failed _ => rfl
  | seed _ => rfl

theorem fillXo_withPcg (e : PcgEngine) (len : Word) (s : State) :
    fillXo len (withPcg e s) = mapNext (withPcg e) (fillXo len s) :=
  requireSeeded_mapNext (respond_withPcg e) rfl

theorem execXoSave_withPcg (e : PcgEngine) (s : State) :
    execXoSave (withPcg e s) = mapNext (withPcg e) (execXoSave s) :=
  requirePresent_mapNext (respond_withPcg e) (requireSeeded_mapNext (respond_withPcg e) rfl)

theorem execXoLoad_withPcg (e : PcgEngine) (w0 w1 w2 w3 : Word) (s : State) :
    execXoLoad w0 w1 w2 w3 (withPcg e s) = mapNext (withPcg e) (execXoLoad w0 w1 w2 w3 s) :=
  requirePresent_mapNext (respond_withPcg e) (by split <;> rfl)

/-- An XO command goes on unchanged when the PCG engine is replaced. -/
theorem exec_withPcg {i : Instr} (hi : i.command.onPcg = false) (e : PcgEngine) (s : State) :
    exec i (withPcg e s) = mapNext (withPcg e) (exec i s) := by
  cases i with
  | xoSeed w0 w1 w2 w3 => rfl
  | xoSeedrng => exact awaitXoSeed_withPcg e (request 32 s)
  | xoNext32 => exact requireSeeded_mapNext (respond_withPcg e) rfl
  | xoNext64 => exact requireSeeded_mapNext (respond_withPcg e) rfl
  | xoFill len => exact fillXo_withPcg e len s
  | xoTryfill len => exact fillXo_withPcg e len s
  | xoJump => exact requireSeeded_mapNext (respond_withPcg e) rfl
  | xoSave => exact execXoSave_withPcg e s
  | xoLoad w0 w1 w2 w3 => exact execXoLoad_withPcg e w0 w1 w2 w3 s
  | xoStat => rfl
  | pcgSeed | pcgSeedrng | pcgNext32 | pcgNext64 | pcgFill | pcgTryfill | pcgAdvance | pcgSave | pcgLoad | pcgStat =>
    cases hi

/-! ## The obligation -/

/-- A PCG command leaves the XO engine as it was: replacing that engine by itself changes neither side of `exec_withXo`. -/
theorem exec_keeps_xo {i : Instr} (hi : i.command.onPcg = true) {s t : State} (h : exec i s = .next t) : t.xo = s.xo := by
  have hself := exec_withXo hi s.xo s
  rw [withXo_self, h, mapNext_next, Host.Outcome.next.injEq] at hself
  rw [hself, withXo_xo]

/-- An XO command leaves the PCG engine as it was: replacing that engine by itself changes neither side of `exec_withPcg`. -/
theorem exec_keeps_pcg {i : Instr} (hi : i.command.onPcg = false) {s t : State} (h : exec i s = .next t) :
    t.pcg = s.pcg := by
  have hself := exec_withPcg hi s.pcg s
  rw [withPcg_self, h, mapNext_next, Host.Outcome.next.injEq] at hself
  rw [hself, withPcg_pcg]

/-- Settles O43: replacing the other engine commutes with every command. -/
theorem enginesAreIndependent : Obligations.EnginesAreIndependent := by
  unfold Obligations.EnginesAreIndependent
  constructor
  · intro i s t e hi h
    exact ⟨exec_keeps_xo hi h, (exec_withXo hi e s).trans (congrArg (mapNext (withXo e)) h)⟩
  · intro i s t e hi h
    exact ⟨exec_keeps_pcg hi h, (exec_withPcg hi e s).trans (congrArg (mapNext (withPcg e)) h)⟩

end Sys2Proof.Machine

/-! # The jump is `2^128` steps, so it keeps a state non-zero (spec/42_xoshiro.md R85, R95) -/

namespace Sys2Proof.Machine

theorem xoSteps_add (w : XoWords) (m n : Nat) : xoSteps (xoSteps w m) n = xoSteps w (m + n) := by
  induction n with
  | zero => rfl
  | succ k ih => exact congrArg xoStep ih

/-- `k` squarings of `p` modulo `xoChar` all stay below degree 256, and the last of them is `q`. The comparison comes before
the next squaring, so that the kernel has the number at hand when it goes on. -/
def xoSquaresTo (k p q : Nat) : Bool :=
  match k with
  | 0 => p == q
  | j + 1 => Nat.blt (xoSquare p) (2 ^ 256) && xoSquaresTo j (xoSquare p) q

/-- Each squaring doubles the number of steps a polynomial stands for. -/
theorem xoPoly_of_xoSquaresTo {k p q n : Nat} (hq : xoSquaresTo k p q = true)
    (hp : ∀ w, xoPoly 256 p w = xoSteps w n) (w : XoWords) : xoPoly 256 q w = xoSteps w (n * 2 ^ k) := by
  induction k generalizing p n with
  | zero =>
    obtain rfl : p = q := by simpa [xoSquaresTo] using hq
    simpa using hp w
  | succ j ih =>
    rw [xoSquaresTo, Bool.and_eq_true, Nat.blt_eq] at hq
    obtain ⟨hlt, hrest⟩ := hq
    have hsquare : ∀ v, xoPoly 256 (xoSquare p) v = xoSteps v (n * 2) := fun v => by
      rw [xoPoly_square p hlt, hp, hp, xoSteps_add, Nat.mul_two]
    rw [ih hrest hsquare, Nat.mul_assoc, ← Nat.pow_succ']

/-- The polynomial `X`, squared 128 times modulo `xoChar`, is the jump polynomial. -/
theorem xoSquaresTo_jumpPoly : xoSquaresTo 128 2 jumpPoly = true := by decide +kernel

/-- The stride of the jump (R95). -/
theorem xoJump_eq_xoSteps (w : XoWords) : xoJump w = xoSteps w (2 ^ 128) := by
  have hX : ∀ v, xoPoly 256 2 v = xoSteps v 1 := fun v =>
    (xoPoly_extend_add 2 254 2 v (by decide)).trans (xoPoly_pow 1 v)
  rw [xoJump_eq_xoPoly, xoPoly_of_xoSquaresTo xoSquaresTo_jumpPoly hX, Nat.one_mul]

theorem xoStep_ne_zero {w : XoWords} (hw : w ≠ xoZero) : xoStep w ≠ xoZero := fun h => hw (xoStep_eq_zero h)

theorem xoSteps_ne_zero {w : XoWords} (hw : w ≠ xoZero) (n : Nat) : xoSteps w n ≠ xoZero := by
  induction n with
  | zero => exact hw
  | succ k ih => exact xoStep_ne_zero ih

theorem xoJump_ne_zero {w : XoWords} (hw : w ≠ xoZero) : xoJump w ≠ xoZero :=
  xoJump_eq_xoSteps w ▸ xoSteps_ne_zero hw _

end Sys2Proof.Machine

/-! # What a command can do to its engine

Two kinds of command: those that construct (R15) store a whole new engine; the others at most move the one they find. -/

namespace Sys2Proof.Machine

/-! ## Commands that need a seeded engine (R17): the gate, then the seeded check, then the engine's words written -/

theorem exec_needsInstance_pcg {i : Instr} (hn : i.command.needsInstance = true) (hp : i.command.onPcg = true) :
    ∃ (q : State → List Byte) (w : State → Word), ∀ s, exec i s =
      requirePresent (i.wf s.params) s (requireSeeded s.pcg.seeded s (finish (q s) (writePcgState (w s) s))) := by
  cases i with
  | pcgNext32 => exact ⟨_, _, fun _ => rfl⟩
  | pcgNext64 => exact ⟨_, _, fun _ => rfl⟩
  | pcgFill len => exact ⟨_, _, fun _ => rfl⟩
  | pcgTryfill len => exact ⟨_, _, fun _ => rfl⟩
  | pcgAdvance delta => exact ⟨_, _, fun _ => rfl⟩
  | pcgSave => exact ⟨_, fun s => s.pcg.state, fun _ => rfl⟩
  | pcgSeed | pcgSeedrng | pcgLoad | pcgStat => cases hn
  | xoSeed | xoSeedrng | xoNext32 | xoNext64 | xoFill | xoTryfill | xoJump | xoSave | xoLoad | xoStat => cases hp

/-- The engine state a fill leaves has every property that one draw keeps. -/
theorem fillLoop_keeps {σ : Type} {P : σ → Prop} {next64 : σ → Word × σ} (hP : ∀ e, P e → P (next64 e).2)
    (draws left : Nat) {e : σ} (he : P e) : P (fillLoop next64 draws left e).2 := by
  induction draws generalizing left e with
  | zero => exact he
  | succ k ih => exact ih (left - 8) (hP e he)

theorem fill_xoNext64_ne_zero {w : XoWords} (hw : w ≠ xoZero) (n : Nat) : (fill xoNext64 n w).2 ≠ xoZero :=
  fillLoop_keeps (P := (· ≠ xoZero)) (fun _ => xoStep_ne_zero) _ _ hw

theorem exec_needsInstance_xo {i : Instr} (hn : i.command.needsInstance = true) (hp : i.command.onPcg = false) :
    ∃ (q : State → List Byte) (w : State → XoWords), (∀ s, s.xo.words ≠ xoZero → w s ≠ xoZero) ∧ ∀ s, exec i s =
      requirePresent (i.wf s.params) s (requireSeeded s.xo.seeded s (finish (q s) (writeXoWords (w s) s))) := by
  cases i with
  | xoNext32 => exact ⟨_, fun s => xoStep s.xo.words, fun _ => xoStep_ne_zero, fun _ => rfl⟩
  | xoNext64 => exact ⟨_, fun s => xoStep s.xo.words, fun _ => xoStep_ne_zero, fun _ => rfl⟩
  | xoFill len =>
    exact ⟨_, fun s => (fill xoNext64 len.toNat s.xo.words).2, fun _ hw => fill_xoNext64_ne_zero hw _, fun _ => rfl⟩
  | xoTryfill len =>
    exact ⟨_, fun s => (fill xoNext64 len.toNat s.xo.words).2, fun _ hw => fill_xoNext64_ne_zero hw _, fun _ => rfl⟩
  | xoJump => exact ⟨_, fun s => xoJump s.xo.words, fun _ => xoJump_ne_zero, fun _ => rfl⟩
  | xoSave => exact ⟨_, fun s => s.xo.words, fun _ => id, fun _ => rfl⟩
  | xoSeed | xoSeedrng | xoLoad | xoStat => cases hn
  | pcgSeed | pcgSeedrng | pcgNext32 | pcgNext64 | pcgFill | pcgTryfill | pcgAdvance | pcgSave | pcgLoad | pcgStat =>
    cases hp

end Sys2Proof.Machine

namespace Sys2Proof.Machine

/-- A command that needs a seeded engine, on one that is not: `NOT_SEEDED`, or `ILLEGAL_CMD` where the build lacks the command
(R103, R105). -/
theorem exec_of_unseeded {i : Instr} {s : State} (hn : i.command.needsInstance = true)
    (hs : s.seededFor i.command = false) :
    exec i s = .next (respond (if i.wf s.params then .notSeeded else .illegalCmd) [] s) := by
  have hchecked : ∃ body, exec i s = requirePresent (i.wf s.params) s (requireSeeded (s.seededFor i.command) s body) := by
    cases hp : i.command.onPcg with
    | true =>
      obtain ⟨q, w, hexec⟩ := exec_needsInstance_pcg hn hp
      exact ⟨_, by simpa [State.seededFor, hp] using hexec s⟩
    | false =>
      obtain ⟨q, w, -, hexec⟩ := exec_needsInstance_xo hn hp
      exact ⟨_, by simpa [State.seededFor, hp] using hexec s⟩
  obtain ⟨body, hexec⟩ := hchecked
  rw [hexec, requireSeeded_of_unseeded hs]
  cases i.wf s.params with
  | true => exact requirePresent_of_present rfl _ _
  | false => exact requirePresent_of_absent rfl _ _

/-- A PCG command that constructs nothing answers, and writes `PCG.state` at most (R12, R23). -/
theorem exec_next_of_not_constructs_pcg {i : Instr} {s t : State} (hc : i.command.constructs = false)
    (hp : i.command.onPcg = true) (h : exec i s = .next t) : ∃ st q w, t = respond st q (writePcgState w s) := by
  cases hn : i.command.needsInstance with
  | false =>
    cases i with
    | pcgStat => exact ⟨_, _, s.pcg.state, execPcgStat_next.mp h⟩
    | pcgSeed | pcgSeedrng | pcgLoad | xoSeed | xoSeedrng | xoLoad => cases hc
    | pcgNext32 | pcgNext64 | pcgFill | pcgTryfill | pcgAdvance | pcgSave => cases hn
    | xoNext32 | xoNext64 | xoFill | xoTryfill | xoJump | xoSave | xoStat => cases hp
  | true =>
    obtain ⟨q, w, hexec⟩ := exec_needsInstance_pcg hn hp
    obtain ⟨-, rfl⟩ | ⟨-, h⟩ := requirePresent_next (hexec s ▸ h)
    · exact ⟨_, _, s.pcg.state, rfl⟩
    · obtain ⟨-, rfl⟩ | ⟨-, h⟩ := requireSeeded_next h
      · exact ⟨_, _, s.pcg.state, rfl⟩
      · exact ⟨_, _, _, (finish_eq_next _ _ _).mp h⟩

/-- An XO command that constructs nothing answers, and writes the words at most, keeping them non-zero (R14, R23). -/
theorem exec_next_of_not_constructs_xo {i : Instr} {s t : State} (hc : i.command.constructs = false)
    (hp : i.command.onPcg = false) (h : exec i s = .next t) :
    ∃ st q w, (s.xo.words ≠ xoZero → w ≠ xoZero) ∧ t = respond st q (writeXoWords w s) := by
  cases hn : i.command.needsInstance with
  | false =>
    cases i with
    | xoStat => exact ⟨_, _, s.xo.words, id, execXoStat_next.mp h⟩
    | pcgSeed | pcgSeedrng | pcgLoad | xoSeed | xoSeedrng | xoLoad => cases hc
    | xoNext32 | xoNext64 | xoFill | xoTryfill | xoJump | xoSave => cases hn
    | pcgNext32 | pcgNext64 | pcgFill | pcgTryfill | pcgAdvance | pcgSave | pcgStat => cases hp
  | true =>
    obtain ⟨q, w, hw, hexec⟩ := exec_needsInstance_xo hn hp
    obtain ⟨-, rfl⟩ | ⟨-, h⟩ := requirePresent_next (hexec s ▸ h)
    · exact ⟨_, _, s.xo.words, id, rfl⟩
    · obtain ⟨-, rfl⟩ | ⟨-, h⟩ := requireSeeded_next h
      · exact ⟨_, _, s.xo.words, id, rfl⟩
      · exact ⟨_, _, _, hw s, (finish_eq_next _ _ _).mp h⟩

/-! ## Commands that construct: no `OK` and the engine as it was, or a whole new engine -/

/-- What `f`, constructing the PCG engine at `s`, does when it answers `t`: it gives no `OK` and leaves the engine as it was,
or it leaves one with `inc` odd (R12), and with any other PCG engine before it the answer is the same (R15). -/
def ConstructsPcg (f : State → Result) (s t : State) : Prop :=
  t.params = s.params ∧ t.xo = s.xo ∧
    ((t.pcg = s.pcg ∧ t.responses ≠ s.responses ++ [⟨.ok, []⟩]) ∨
     (t.pcg.seeded = true ∧ t.pcg.inc.getLsbD 0 = true ∧ ∀ e, f (withPcg e s) = .next t))

/-- What `f`, constructing the XO engine at `s`, does when it answers `t`: as `ConstructsPcg`, with R14 in the place of R12.
`XO.SEED` may store `ZERO_SEED_SUBST`, which is non-zero where it is admissible (R88). -/
def ConstructsXo (f : State → Result) (s t : State) : Prop :=
  t.params = s.params ∧ t.pcg = s.pcg ∧
    ((t.xo = s.xo ∧ t.responses ≠ s.responses ++ [⟨.ok, []⟩]) ∨
     (t.xo.seeded = true ∧ (s.params.Admissible → t.xo.words ≠ xoZero) ∧ ∀ e, f (withXo e s) = .next t))

theorem pcgConstruct_inc_odd (seed seq : Word) : (pcgConstruct seed seq).2.getLsbD 0 = true := by
  simp [pcgConstruct]

theorem pcgConstructBytes_inc_odd (b : List Byte) : (pcgConstructBytes b).2.getLsbD 0 = true := pcgConstruct_inc_odd _ _

theorem xoConstruct_ne_zero {p : Params} (hp : p.Admissible) (w : XoWords) : xoConstruct p w ≠ xoZero := by
  obtain ⟨hz1, -, -⟩ := hp
  unfold xoConstruct
  split
  · exact fun h => hz1 (congrArg XoWords.s1 h)
  · assumption

theorem awaitPcgSeed_of_ok {s : State} {b : EntropyBytes} {rest : List EntropyEvent} (he : s.entropy = .ok b :: rest) :
    awaitPcgSeed s = .next (respond .ok [] (buildPcg (pcgConstructBytes (b.toList.take 16)) (drawn rest s))) := by
  unfold awaitPcgSeed
  rw [he]
  rfl

theorem awaitXoSeed_of_seed {s : State} {w : XoWords} (hw : (xoSeedLoop s.entropy).1 = .seed w) :
    awaitXoSeed s = .next (respond .ok [] (buildXo w (drawn (xoSeedLoop s.entropy).2.2
      { s with requests := s.requests ++ List.replicate (xoSeedLoop s.entropy).2.1 32 }))) := by
  simp only [awaitXoSeed, hw, finish]

theorem awaitPcgSeed_constructs {s t : State} (h : awaitPcgSeed s = .next t) : ConstructsPcg awaitPcgSeed s t := by
  obtain ⟨-, rfl⟩ | ⟨rest, -, rfl⟩ | ⟨e, rest, -, rfl⟩ | ⟨b, rest, he, rfl⟩ := awaitPcgSeed_next h
  · exact ⟨rfl, rfl, .inl ⟨rfl, by simp⟩⟩
  · exact ⟨rfl, rfl, .inl ⟨rfl, by simp⟩⟩
  · exact ⟨rfl, rfl, .inl ⟨rfl, by simp⟩⟩
  · exact ⟨rfl, rfl, .inr ⟨rfl, pcgConstructBytes_inc_odd _, fun e => awaitPcgSeed_of_ok (s := withPcg e s) he⟩⟩

theorem awaitXoSeed_constructs {s t : State} (h : awaitXoSeed s = .next t) : ConstructsXo awaitXoSeed s t := by
  obtain ⟨-, rfl⟩ | ⟨e, -, rfl⟩ | ⟨w, hseed, rfl⟩ := awaitXoSeed_next h
  · exact ⟨rfl, rfl, .inl ⟨rfl, by simp⟩⟩
  · exact ⟨rfl, rfl, .inl ⟨rfl, by simp⟩⟩
  · exact ⟨rfl, rfl, .inr ⟨rfl, fun _ => xoSeedLoop_seed_ne_zero _ _ hseed,
      fun e => awaitXoSeed_of_seed (s := withXo e s) hseed⟩⟩

theorem exec_constructs_pcg {i : Instr} {s t : State} (hc : i.command.constructs = true) (hp : i.command.onPcg = true)
    (h : exec i s = .next t) : ConstructsPcg (exec i) s t := by
  cases i with
  | pcgSeed seed seq =>
    obtain rfl := execPcgSeed_next.mp h
    exact ⟨rfl, rfl, .inr ⟨rfl, pcgConstruct_inc_odd seed seq, fun _ => rfl⟩⟩
  | pcgSeedrng => exact awaitPcgSeed_constructs (s := request 16 s) h
  | pcgLoad st ic =>
    obtain ⟨-, rfl⟩ | ⟨-, -, rfl⟩ | ⟨hpresent, hodd, rfl⟩ := execPcgLoad_next h
    · exact ⟨rfl, rfl, .inl ⟨rfl, by simp⟩⟩
    · exact ⟨rfl, rfl, .inl ⟨rfl, by simp⟩⟩
    · exact ⟨rfl, rfl, .inr ⟨rfl, hodd, fun e =>
        (requirePresent_of_present hpresent _ _).trans (if_neg (by simp [hodd]))⟩⟩
  | pcgNext32 | pcgNext64 | pcgFill | pcgTryfill | pcgAdvance | pcgSave | pcgStat => cases hc
  | xoSeed | xoSeedrng | xoNext32 | xoNext64 | xoFill | xoTryfill | xoJump | xoSave | xoLoad | xoStat => cases hp

theorem exec_constructs_xo {i : Instr} {s t : State} (hc : i.command.constructs = true) (hp : i.command.onPcg = false)
    (h : exec i s = .next t) : ConstructsXo (exec i) s t := by
  cases i with
  | xoSeed w0 w1 w2 w3 =>
    obtain rfl := execXoSeed_next.mp h
    exact ⟨rfl, rfl, .inr ⟨rfl, fun ha => xoConstruct_ne_zero ha _, fun _ => rfl⟩⟩
  | xoSeedrng => exact awaitXoSeed_constructs (s := request 32 s) h
  | xoLoad w0 w1 w2 w3 =>
    obtain ⟨-, rfl⟩ | ⟨-, -, rfl⟩ | ⟨hpresent, hnz, rfl⟩ := execXoLoad_next h
    · exact ⟨rfl, rfl, .inl ⟨rfl, by simp⟩⟩
    · exact ⟨rfl, rfl, .inl ⟨rfl, by simp⟩⟩
    · exact ⟨rfl, rfl, .inr ⟨rfl, fun _ => hnz, fun e =>
        (requirePresent_of_present hpresent _ _).trans (if_neg hnz)⟩⟩
  | xoNext32 | xoNext64 | xoFill | xoTryfill | xoJump | xoSave | xoStat => cases hc
  | pcgSeed | pcgSeedrng | pcgNext32 | pcgNext64 | pcgFill | pcgTryfill | pcgAdvance | pcgSave | pcgLoad | pcgStat =>
    cases hp

/-- A construction that gives `OK` does the same with any other PCG engine before it (R15). -/
theorem ConstructsPcg.forgets {f : State → Result} {s t : State} (h : ConstructsPcg f s t)
    (hok : t.responses = s.responses ++ [⟨.ok, []⟩]) (e : PcgEngine) : f (withPcg e s) = .next t := by
  obtain ⟨-, -, ⟨-, hno⟩ | ⟨-, -, hforgets⟩⟩ := h
  · exact absurd hok hno
  · exact hforgets e

/-- A construction that gives `OK` does the same with any other XO engine before it (R15). -/
theorem ConstructsXo.forgets {f : State → Result} {s t : State} (h : ConstructsXo f s t)
    (hok : t.responses = s.responses ++ [⟨.ok, []⟩]) (e : XoEngine) : f (withXo e s) = .next t := by
  obtain ⟨-, -, ⟨-, hno⟩ | ⟨-, -, hforgets⟩⟩ := h
  · exact absurd hok hno
  · exact hforgets e

/-- Settles O46: a construction that gives `OK` stores a whole engine and reads nothing of the old one. -/
theorem constructionForgetsTheOldInstance : Obligations.ConstructionForgetsTheOldInstance := by
  unfold Obligations.ConstructionForgetsTheOldInstance
  constructor
  · intro i s t e hc hp h hok
    exact (exec_constructs_pcg hc hp h).forgets hok e
  · intro i s t e hc hp h hok
    exact (exec_constructs_xo hc hp h).forgets hok e

/-! ## The invariant (spec/10_state.md R12, R14; spec/42_xoshiro.md R88) -/

theorem ConstructsPcg.keeps_incOdd {f : State → Result} {s t : State} (h : ConstructsPcg f s t) (hs : s.PcgIncOdd) :
    t.PcgIncOdd := by
  obtain ⟨-, -, ⟨hpcg, -⟩ | ⟨-, hodd, -⟩⟩ := h
  · unfold State.PcgIncOdd
    rwa [hpcg]
  · exact fun _ => hodd

theorem ConstructsPcg.keeps_inv {f : State → Result} {s t : State} (h : ConstructsPcg f s t) (hs : s.Inv) : t.Inv := by
  obtain ⟨hadm, hodd, hnz⟩ := hs
  have hodd' := h.keeps_incOdd hodd
  obtain ⟨hparams, hxo, -⟩ := h
  refine ⟨hparams ▸ hadm, hodd', ?_⟩
  unfold State.XoNonzero
  rwa [hxo]

theorem ConstructsXo.keeps_inv {f : State → Result} {s t : State} (h : ConstructsXo f s t) (hs : s.Inv) : t.Inv := by
  obtain ⟨hadm, hodd, hnz⟩ := hs
  obtain ⟨hparams, hpcg, hxo⟩ := h
  refine ⟨hparams ▸ hadm, ?_, ?_⟩
  · unfold State.PcgIncOdd
    rwa [hpcg]
  · obtain ⟨hxo, -⟩ | ⟨-, hnew, -⟩ := hxo
    · unfold State.XoNonzero
      rwa [hxo]
    · exact fun _ => hnew hadm

/-- Every command keeps the invariant. -/
theorem exec_keeps_inv {i : Instr} {s t : State} (hs : s.Inv) (h : exec i s = .next t) : t.Inv := by
  cases hp : i.command.onPcg with
  | true =>
    cases hc : i.command.constructs with
    | true => exact (exec_constructs_pcg hc hp h).keeps_inv hs
    | false =>
      obtain ⟨st, q, w, rfl⟩ := exec_next_of_not_constructs_pcg hc hp h
      exact hs
  | false =>
    cases hc : i.command.constructs with
    | true => exact (exec_constructs_xo hc hp h).keeps_inv hs
    | false =>
      obtain ⟨st, q, w, hw, rfl⟩ := exec_next_of_not_constructs_xo hc hp h
      obtain ⟨hadm, hodd, hnz⟩ := hs
      exact ⟨hadm, hodd, fun hseeded => hw (hnz hseeded)⟩

theorem resume_keeps_inv {d : SeedDraw} {s t : State} (hs : s.Inv) (h : resume d s = .next t) : t.Inv := by
  cases d with
  | pcgSeedrng => exact (awaitPcgSeed_constructs h).keeps_inv hs
  | xoSeedrng => exact (awaitXoSeed_constructs h).keeps_inv hs

/-- A reset unseeds both engines, so that R12 and R14 ask nothing of their words. -/
theorem resetBlock_keeps_inv {s : State} (hs : s.Inv) : (resetBlock s).Inv := by
  obtain ⟨hadm, -, -⟩ := hs
  exact ⟨hadm, fun h => Bool.noConfusion h, fun h => Bool.noConfusion h⟩

/-- Settles O41: by the five kinds of step. The hard command is the jump: it is `2^128` steps (`xoJump_eq_xoSteps`), and only
the zero state steps to the zero state. -/
theorem invKeptByEveryStep : Obligations.InvKeptByEveryStep := by
  unfold Obligations.InvKeptByEveryStep
  intro s t hs h
  obtain ⟨rest, -, rfl⟩ | ⟨d, -, -, h⟩ | ⟨f, rest, i, -, -, -, h⟩ | ⟨f, rest, e, -, -, -, rfl⟩ | ⟨-, -, rfl⟩ := step_next h
  · exact resetBlock_keeps_inv hs
  · exact resume_keeps_inv hs h
  · exact exec_keeps_inv (s := { s with hostEvents := rest }) hs h
  · exact hs
  · exact hs

/-- Settles O42: both engines are unseeded and the default parameters are admissible. -/
theorem invAtReset : Obligations.InvAtReset := by
  unfold Obligations.InvAtReset
  exact ⟨by decide, fun h => Bool.noConfusion h, fun h => Bool.noConfusion h⟩

/-- Settles O28: a command that does not construct the PCG engine keeps `inc` and the flag, and one that does forces `inc` odd
(`SEED`, `SEEDRNG`) or refuses an even one (`LOAD`). -/
theorem incIsWrittenByConstructionOnly : Obligations.IncIsWrittenByConstructionOnly := by
  unfold Obligations.IncIsWrittenByConstructionOnly
  intro i s t h
  cases hp : i.command.onPcg with
  | false =>
    have hpcg := exec_keeps_pcg hp h
    refine ⟨fun _ => congrArg PcgEngine.inc hpcg, by simp, ?_⟩
    unfold State.PcgIncOdd
    rw [hpcg]
    exact id
  | true =>
    cases hc : i.command.constructs with
    | false =>
      obtain ⟨st, q, w, rfl⟩ := exec_next_of_not_constructs_pcg hc hp h
      exact ⟨fun _ => rfl, by simp, id⟩
    | true =>
      have hconstructs := exec_constructs_pcg hc hp h
      refine ⟨by simp, fun _ hok => ?_, hconstructs.keeps_incOdd⟩
      obtain ⟨-, -, ⟨-, hno⟩ | ⟨hseeded, hodd, -⟩⟩ := hconstructs
      · exact absurd hok hno
      · exact ⟨hseeded, hodd⟩

/-- Settles O14: an unseeded engine answers every command that needs a seeded one with `NOT_SEEDED`, which `exec_of_unseeded`
says of any state. -/
theorem resetLeavesBothUnseeded : Obligations.ResetLeavesBothUnseeded := by
  unfold Obligations.ResetLeavesBothUnseeded
  refine ⟨rfl, rfl, rfl, rfl, rfl, fun i hwf hn => ?_⟩
  have hunseeded : State.reset.seededFor i.command = false := ite_self false
  rw [exec_of_unseeded hn hunseeded, if_pos hwf]

end Sys2Proof.Machine

/-! # What a step answers, for each of its five kinds (spec/40_generator_interface.md R51) -/

namespace Sys2Proof.Machine

section Steps

variable {s : State} {rest : List HostEvent}

theorem step_of_reset (hev : s.hostEvents = .reset :: rest) :
    step s = .next (resetBlock { s with hostEvents := rest }) := by
  simp only [step, nextMove, hev]

theorem step_of_inFlight {d : SeedDraw} (hd : s.inFlight = some d) (hev : ∀ rest, s.hostEvents ≠ .reset :: rest) :
    step s = resume d s := by
  unfold step nextMove
  rw [hd]
  match hevents : s.hostEvents with
  | [] => rfl
  | .frame _ :: _ => rfl
  | .reset :: rest => exact absurd hevents (hev rest)

theorem step_of_command {f : Frame} {i : Instr} (hp : s.Presents f rest) (hf : decode s.params f = .ok i) :
    step s = exec i { s with hostEvents := rest } := by
  obtain ⟨hd, hev⟩ := hp
  simp only [step, nextMove, hd, hev, acceptFrame, hf]

theorem step_of_illegal {f : Frame} {e : Illegal} (hp : s.Presents f rest) (hf : decode s.params f = .error e) :
    step s = .next (respond .illegalCmd [] { s with hostEvents := rest }) := by
  obtain ⟨hd, hev⟩ := hp
  simp only [step, nextMove, hd, hev, acceptFrame, hf, answerIllegal, raise]

theorem step_of_idle (hd : s.inFlight = none) (hev : s.hostEvents = []) : step s = .next s := by
  simp only [step, nextMove, hd, hev]

end Steps

end Sys2Proof.Machine

/-! # What an unseeded engine holds is never observable (spec/10_state.md R24; spec/70_reset_and_hazards.md R113)

Two runs from states that differ at most in the words of unseeded engines go on side by side: each operation keeps the two
states so related, and where a command reads an engine's words, the seeded check has made the engines equal. -/

namespace Sys2Proof.Machine

/-- When `r` answers a next state, so does `r'`, and the two differ at most in the words of unseeded engines. -/
def Agree (r r' : Result) : Prop := ∀ t, r = .next t → ∃ t', r' = .next t' ∧ SameWhereSeeded t t'

theorem agree_next {t t' : State} (h : SameWhereSeeded t t') : Agree (.next t) (.next t') := by
  rintro _ ⟨⟩
  exact ⟨t', rfl, h⟩

theorem sameWhereSeeded_refl (s : State) : SameWhereSeeded s s := ⟨rfl, rfl, fun _ => rfl, rfl, fun _ => rfl⟩

/-! ## The operations keep the relation -/

section Operations

variable {a b : State} (h : SameWhereSeeded a b)
include h

theorem SameWhereSeeded.params_eq : b.params = a.params := by
  obtain ⟨hb, -⟩ := h
  rw [hb]

theorem SameWhereSeeded.inFlight_eq : b.inFlight = a.inFlight := by
  obtain ⟨hb, -⟩ := h
  rw [hb]

theorem SameWhereSeeded.hostEvents_eq : b.hostEvents = a.hostEvents := by
  obtain ⟨hb, -⟩ := h
  rw [hb]

theorem SameWhereSeeded.entropy_eq : b.entropy = a.entropy := by
  obtain ⟨hb, -⟩ := h
  rw [hb]

theorem SameWhereSeeded.seededFor_eq (c : Command) : b.seededFor c = a.seededFor c := by
  obtain ⟨-, hpcg, -, hxo, -⟩ := h
  simp [State.seededFor, hpcg, hxo]

theorem sameWhereSeeded_hostEvents (rest : List HostEvent) :
    SameWhereSeeded { a with hostEvents := rest } { b with hostEvents := rest } := by
  obtain ⟨hb, hengines⟩ := h
  exact ⟨congrArg (fun s : State => { s with hostEvents := rest }) hb, hengines⟩

theorem sameWhereSeeded_requests (further : List Nat) :
    SameWhereSeeded { a with requests := a.requests ++ further } { b with requests := b.requests ++ further } := by
  obtain ⟨hb, hengines⟩ := h
  exact ⟨congrArg (fun s : State => { s with requests := s.requests ++ further }) hb, hengines⟩

theorem sameWhereSeeded_drawn (rest : List EntropyEvent) : SameWhereSeeded (drawn rest a) (drawn rest b) := by
  obtain ⟨hb, hengines⟩ := h
  exact ⟨congrArg (drawn rest) hb, hengines⟩

theorem sameWhereSeeded_buildPcg (w : Word × Word) : SameWhereSeeded (buildPcg w a) (buildPcg w b) := by
  obtain ⟨hb, -, -, hxo⟩ := h
  exact ⟨congrArg (buildPcg w) hb, rfl, fun _ => rfl, hxo⟩

theorem sameWhereSeeded_buildXo (w : XoWords) : SameWhereSeeded (buildXo w a) (buildXo w b) := by
  obtain ⟨hb, hpcg, hpcg', -⟩ := h
  exact ⟨congrArg (buildXo w) hb, hpcg, hpcg', rfl, fun _ => rfl⟩

/-- A reset writes the same fresh values over both engines. -/
theorem sameWhereSeeded_resetBlock : SameWhereSeeded (resetBlock a) (resetBlock b) := by
  obtain ⟨hb, -⟩ := h
  have heq := congrArg resetBlock hb
  exact heq ▸ sameWhereSeeded_refl _

theorem agree_respond (st : Status) (q : List Byte) : Agree (.next (respond st q a)) (.next (respond st q b)) := by
  obtain ⟨hb, hengines⟩ := h
  exact agree_next ⟨congrArg (respond st q) hb, hengines⟩

theorem agree_stall (d : SeedDraw) (rest : List EntropyEvent) : Agree (stall d rest a) (stall d rest b) := by
  obtain ⟨hb, hengines⟩ := h
  exact agree_next ⟨congrArg (fun s : State => { s with inFlight := some d, entropy := rest }) hb, hengines⟩

theorem agree_requirePresent (gate : Params → Bool) {body body' : Result} (hbody : Agree body body') :
    Agree (requirePresent (gate a.params) a body) (requirePresent (gate b.params) b body') := by
  rw [h.params_eq]
  cases gate a.params with
  | false => exact agree_respond h _ _
  | true => exact hbody

/-! ## The commands -/

theorem awaitPcgSeed_agree : Agree (awaitPcgSeed a) (awaitPcgSeed b) := by
  unfold awaitPcgSeed
  rw [h.entropy_eq]
  split
  · exact agree_stall h _ _
  · exact agree_stall h _ _
  · exact agree_respond (sameWhereSeeded_drawn h _) _ _
  · exact agree_respond (sameWhereSeeded_buildPcg (sameWhereSeeded_drawn h _) _) _ _

theorem awaitXoSeed_agree : Agree (awaitXoSeed a) (awaitXoSeed b) := by
  have hrequests := sameWhereSeeded_requests h (List.replicate (xoSeedLoop a.entropy).2.1 32)
  unfold awaitXoSeed
  rw [h.entropy_eq]
  dsimp only
  split
  · exact agree_stall hrequests _ _
  · exact agree_respond (sameWhereSeeded_drawn hrequests _) _ _
  · exact agree_respond (sameWhereSeeded_buildXo (sameWhereSeeded_drawn hrequests _) _) _ _

/-- With the PCG engines equal the states differ in the XO engine only, which a PCG command neither reads nor writes (R2). -/
theorem exec_agree_of_pcg_eq {i : Instr} (hp : i.command.onPcg = true) (hpcg : a.pcg = b.pcg) :
    Agree (exec i a) (exec i b) := by
  intro t ht
  obtain ⟨hb, -, -, hxo⟩ := h
  rw [← hpcg] at hb
  refine ⟨withXo b.xo t, ?_, rfl, rfl, fun _ => rfl, ?_⟩
  · calc exec i b = exec i (withXo b.xo a) := congrArg (exec i) hb
      _ = .next (withXo b.xo t) := (exec_withXo hp b.xo a).trans (congrArg (mapNext (withXo b.xo)) ht)
  · rwa [exec_keeps_xo hp ht]

/-- With the XO engines equal the states differ in the PCG engine only, which an XO command neither reads nor writes (R2). -/
theorem exec_agree_of_xo_eq {i : Instr} (hp : i.command.onPcg = false) (hxo : a.xo = b.xo) :
    Agree (exec i a) (exec i b) := by
  intro t ht
  obtain ⟨hb, hseeded, hpcg, -⟩ := h
  rw [← hxo] at hb
  refine ⟨withPcg b.pcg t, ?_, rfl, ?_, ?_, rfl, fun _ => rfl⟩
  · calc exec i b = exec i (withPcg b.pcg a) := congrArg (exec i) hb
      _ = .next (withPcg b.pcg t) := (exec_withPcg hp b.pcg a).trans (congrArg (mapNext (withPcg b.pcg)) ht)
  · rwa [exec_keeps_pcg hp ht]
  · rwa [exec_keeps_pcg hp ht]

/-- A command that needs a seeded engine runs on equal engines, or is turned away on both. -/
theorem exec_agree_of_needsInstance {i : Instr} (hn : i.command.needsInstance = true) :
    Agree (exec i a) (exec i b) := by
  cases hs : a.seededFor i.command with
  | false =>
    rw [exec_of_unseeded hn hs, exec_of_unseeded hn ((h.seededFor_eq _).trans hs), h.params_eq]
    exact agree_respond h _ _
  | true =>
    have ⟨_, _, hpcg, _, hxo⟩ := h
    cases hp : i.command.onPcg with
    | true => exact exec_agree_of_pcg_eq h hp (hpcg (by simpa [State.seededFor, hp] using hs))
    | false => exact exec_agree_of_xo_eq h hp (hxo (by simpa [State.seededFor, hp] using hs))

theorem exec_agree (i : Instr) : Agree (exec i a) (exec i b) := by
  cases hn : i.command.needsInstance with
  | true => exact exec_agree_of_needsInstance h hn
  | false =>
    have ⟨_, hpcg, _, hxo, _⟩ := h
    cases i with
    | pcgSeed seed seq => exact agree_respond (sameWhereSeeded_buildPcg h _) _ _
    | pcgSeedrng => exact awaitPcgSeed_agree (sameWhereSeeded_requests h [16])
    | pcgLoad st ic =>
      refine agree_requirePresent h Params.hasPersist ?_
      split
      · exact agree_respond h _ _
      · exact agree_respond (sameWhereSeeded_buildPcg h _) _ _
    | pcgStat =>
      unfold exec execPcgStat
      rw [hpcg]
      exact agree_respond h _ _
    | xoSeed w0 w1 w2 w3 =>
      unfold exec execXoSeed
      rw [h.params_eq]
      exact agree_respond (sameWhereSeeded_buildXo h _) _ _
    | xoSeedrng => exact awaitXoSeed_agree (sameWhereSeeded_requests h [32])
    | xoLoad w0 w1 w2 w3 =>
      refine agree_requirePresent h Params.hasPersist ?_
      split
      · exact agree_respond h _ _
      · exact agree_respond (sameWhereSeeded_buildXo h _) _ _
    | xoStat =>
      unfold exec execXoStat
      rw [hxo]
      exact agree_respond h _ _
    | pcgNext32 | pcgNext64 | pcgFill | pcgTryfill | pcgAdvance | pcgSave => cases hn
    | xoNext32 | xoNext64 | xoFill | xoTryfill | xoJump | xoSave => cases hn

theorem resume_agree (d : SeedDraw) : Agree (resume d a) (resume d b) := by
  cases d with
  | pcgSeedrng => exact awaitPcgSeed_agree h
  | xoSeedrng => exact awaitXoSeed_agree h

/-! ## Steps and runs -/

theorem step_agree : Agree (step a) (step b) := by
  intro t ht
  obtain ⟨rest, hev, rfl⟩ | ⟨d, hd, hev, ht⟩ | ⟨f, rest, i, hd, hev, hf, ht⟩ | ⟨f, rest, e, hd, hev, hf, rfl⟩ |
    ⟨hd, hev, rfl⟩ := step_next ht <;> rw [← h.hostEvents_eq] at hev
  · rw [step_of_reset hev]
    exact agree_next (sameWhereSeeded_resetBlock (sameWhereSeeded_hostEvents h rest)) _ rfl
  · rw [step_of_inFlight (h.inFlight_eq.trans hd) hev]
    exact resume_agree h d t ht
  · rw [step_of_command ⟨h.inFlight_eq.trans hd, hev⟩ (h.params_eq ▸ hf)]
    exact exec_agree (sameWhereSeeded_hostEvents h rest) i t ht
  · rw [step_of_illegal ⟨h.inFlight_eq.trans hd, hev⟩ (h.params_eq ▸ hf)]
    exact agree_respond (sameWhereSeeded_hostEvents h rest) _ _ _ rfl
  · rw [step_of_idle (h.inFlight_eq.trans hd) hev]
    exact agree_next h _ rfl

end Operations

/-- A run of `k + 1` steps is one step and a run of `k`. -/
theorem core_run_succ (k : Nat) (s : State) : core.run (k + 1) s = andThen (step s) (core.run k) := by
  have hstep : core.step s = step s := rfl
  simp only [Host.Core.run, hstep]
  cases step s <;> rfl

/-- Settles O45: by induction on the number of steps, each of which keeps the relation (`step_agree`). -/
theorem resetWordsAreUnobservable : Obligations.ResetWordsAreUnobservable := by
  unfold Obligations.ResetWordsAreUnobservable
  intro n
  induction n with
  | zero => exact fun a b ta h hrun => agree_next h ta hrun
  | succ k ih =>
    intro a b ta h hrun
    obtain ⟨u, hstep, hrest⟩ := andThen_eq_next.mp ((core_run_succ k a).symm.trans hrun)
    obtain ⟨v, hstep', huv⟩ := step_agree h u hstep
    obtain ⟨tb, hrest', htb⟩ := ih u v ta huv hrest
    exact ⟨tb, (core_run_succ k b).trans (andThen_eq_next.mpr ⟨v, hstep', hrest'⟩), htb⟩

end Sys2Proof.Machine

/-! # A busy block (spec/20_memory.md R32; spec/70_reset_and_hazards.md R115) -/

namespace Sys2Proof.Machine

/-- What one more wait of the command `d` does to the ports: no event of the host is taken, and the command stays in progress
without a response, or ends with exactly one. -/
def WaitsOrEnds (d : SeedDraw) (s t : State) : Prop :=
  t.hostEvents = s.hostEvents ∧
    ((t.inFlight = some d ∧ t.responses = s.responses) ∨
     (t.inFlight = none ∧ ∃ r, t.responses = s.responses ++ [r]))

theorem awaitPcgSeed_waitsOrEnds {s t : State} (h : awaitPcgSeed s = .next t) : WaitsOrEnds .pcgSeedrng s t := by
  obtain ⟨-, rfl⟩ | ⟨rest, -, rfl⟩ | ⟨e, rest, -, rfl⟩ | ⟨b, rest, -, rfl⟩ := awaitPcgSeed_next h
  · exact ⟨rfl, .inl ⟨rfl, rfl⟩⟩
  · exact ⟨rfl, .inl ⟨rfl, rfl⟩⟩
  · exact ⟨rfl, .inr ⟨rfl, _, rfl⟩⟩
  · exact ⟨rfl, .inr ⟨rfl, _, rfl⟩⟩

theorem awaitXoSeed_waitsOrEnds {s t : State} (h : awaitXoSeed s = .next t) : WaitsOrEnds .xoSeedrng s t := by
  obtain ⟨-, rfl⟩ | ⟨e, -, rfl⟩ | ⟨w, -, rfl⟩ := awaitXoSeed_next h
  · exact ⟨rfl, .inl ⟨rfl, rfl⟩⟩
  · exact ⟨rfl, .inr ⟨rfl, _, rfl⟩⟩
  · exact ⟨rfl, .inr ⟨rfl, _, rfl⟩⟩

theorem resume_waitsOrEnds {d : SeedDraw} {s t : State} (h : resume d s = .next t) : WaitsOrEnds d s t := by
  cases d with
  | pcgSeedrng => exact awaitPcgSeed_waitsOrEnds h
  | xoSeedrng => exact awaitXoSeed_waitsOrEnds h

/-- Settles O8: with a frame, not a reset, at the head of the events the step of a busy block is one more wait. -/
theorem busyBlockAcceptsNoFrame : Obligations.BusyBlockAcceptsNoFrame := by
  unfold Obligations.BusyBlockAcceptsNoFrame
  intro s t d f rest hd hev h
  have hwait : step s = resume d s := step_of_inFlight hd (by simp [hev])
  exact resume_waitsOrEnds (hwait.symm.trans h)

end Sys2Proof.Machine

/-! # The length of every response (spec/20_memory.md R29; spec/30_encoding.md R42, R43)

The shared operations keep to the lengths, so each command's meaning does, operation by operation. -/

namespace Sys2Proof.Machine

/-- The payload length of a response with the status `st` to a command whose `OK` response has `n` bytes (R42, R43). -/
def responseLength (n : Nat) (st : Status) : Nat :=
  match st with
  | .ok => n
  | .entropyFail => 4
  | .illegalCmd | .notSeeded | .badState => 0

/-- What `r` adds to the responses of `s`, if it answers: nothing, or one response of the length its status asks for. -/
def AnswersWithLength (n : Nat) (s : State) (r : Result) : Prop :=
  ∀ t, r = .next t → t.responses = s.responses ∨
    ∃ st q, t.responses = s.responses ++ [⟨st, q⟩] ∧ q.length = responseLength n st

section Operations

variable {n : Nat} {s u : State}

theorem answersWithLength_respond {st : Status} {q : List Byte} (hu : u.responses = s.responses)
    (hq : q.length = responseLength n st) : AnswersWithLength n s (.next (respond st q u)) := by
  rintro _ ⟨⟩
  exact .inr ⟨st, q, by simp [hu], hq⟩

theorem answersWithLength_stall (d : SeedDraw) (rest : List EntropyEvent) (hu : u.responses = s.responses) :
    AnswersWithLength n s (stall d rest u) := by
  rintro _ ⟨⟩
  exact .inl hu

theorem answersWithLength_requireSeeded (b : Bool) {body : Result} (hbody : AnswersWithLength n s body) :
    AnswersWithLength n s (requireSeeded b s body) := by
  cases b with
  | false => exact answersWithLength_respond rfl rfl
  | true => exact hbody

theorem answersWithLength_requirePresent (b : Bool) {body : Result} (hbody : AnswersWithLength n s body) :
    AnswersWithLength n s (requirePresent b s body) := by
  cases b with
  | false => exact answersWithLength_respond rfl rfl
  | true => exact hbody

end Operations

/-- `k` draws give at most `8 k` of the bytes asked for (R54). -/
theorem fillLoop_length {σ : Type} (next64 : σ → Word × σ) (k left : Nat) (e : σ) :
    (fillLoop next64 k left e).1.length = min left (8 * k) := by
  induction k generalizing left e with
  | zero => simp [fillLoop]
  | succ k ih =>
    simp only [fillLoop, List.length_append, List.length_take, bytesLe64_length, ih]
    omega

/-- A fill gives the number of bytes asked for (R54). -/
theorem fill_length {σ : Type} (next64 : σ → Word × σ) (n : Nat) (e : σ) : (fill next64 n e).1.length = n := by
  rw [fill, fillLoop_length]
  omega

theorem awaitPcgSeed_answersWithLength (s : State) : AnswersWithLength 0 s (awaitPcgSeed s) := by
  unfold awaitPcgSeed
  split
  · exact answersWithLength_stall _ _ rfl
  · exact answersWithLength_stall _ _ rfl
  · exact answersWithLength_respond rfl (bytesLe32_length _)
  · exact answersWithLength_respond rfl rfl

theorem awaitXoSeed_answersWithLength (s : State) : AnswersWithLength 0 s (awaitXoSeed s) := by
  unfold awaitXoSeed
  dsimp only
  split
  · exact answersWithLength_stall _ _ rfl
  · exact answersWithLength_respond rfl (bytesLe32_length _)
  · exact answersWithLength_respond rfl rfl

theorem fillPcg_answersWithLength (len : Word) (s : State) : AnswersWithLength len.toNat s (fillPcg len s) :=
  answersWithLength_requireSeeded _ (answersWithLength_respond rfl (fill_length _ _ _))

theorem fillXo_answersWithLength (len : Word) (s : State) : AnswersWithLength len.toNat s (fillXo len s) :=
  answersWithLength_requireSeeded _ (answersWithLength_respond rfl (fill_length _ _ _))

theorem exec_answersWithLength (i : Instr) (s : State) : AnswersWithLength (r42Length i) s (exec i s) := by
  cases i with
  | pcgSeed seed seq => exact answersWithLength_respond rfl rfl
  | pcgSeedrng => exact awaitPcgSeed_answersWithLength (request 16 s)
  | pcgNext32 => exact answersWithLength_requireSeeded _ (answersWithLength_respond rfl (bytesLe32_length _))
  | pcgNext64 => exact answersWithLength_requireSeeded _ (answersWithLength_respond rfl (bytesLe64_length _))
  | pcgFill len => exact fillPcg_answersWithLength len s
  | pcgTryfill len => exact fillPcg_answersWithLength len s
  | pcgAdvance delta =>
    exact answersWithLength_requirePresent _ (answersWithLength_requireSeeded _ (answersWithLength_respond rfl rfl))
  | pcgSave =>
    exact answersWithLength_requirePresent _ (answersWithLength_requireSeeded _ (answersWithLength_respond rfl rfl))
  | pcgLoad st ic =>
    refine answersWithLength_requirePresent _ ?_
    split
    · exact answersWithLength_respond rfl rfl
    · exact answersWithLength_respond rfl rfl
  | pcgStat => exact answersWithLength_respond rfl rfl
  | xoSeed w0 w1 w2 w3 => exact answersWithLength_respond rfl rfl
  | xoSeedrng => exact awaitXoSeed_answersWithLength (request 32 s)
  | xoNext32 => exact answersWithLength_requireSeeded _ (answersWithLength_respond rfl (bytesLe32_length _))
  | xoNext64 => exact answersWithLength_requireSeeded _ (answersWithLength_respond rfl (bytesLe64_length _))
  | xoFill len => exact fillXo_answersWithLength len s
  | xoTryfill len => exact fillXo_answersWithLength len s
  | xoJump => exact answersWithLength_requireSeeded _ (answersWithLength_respond rfl rfl)
  | xoSave =>
    exact answersWithLength_requirePresent _ (answersWithLength_requireSeeded _ (answersWithLength_respond rfl rfl))
  | xoLoad w0 w1 w2 w3 =>
    refine answersWithLength_requirePresent _ ?_
    split
    · exact answersWithLength_respond rfl rfl
    · exact answersWithLength_respond rfl rfl
  | xoStat => exact answersWithLength_respond rfl rfl

/-- Settles O13: the response added is the one whose length `exec_answersWithLength` gives. -/
theorem responsePayloadLengths : Obligations.ResponsePayloadLengths := by
  unfold Obligations.ResponsePayloadLengths
  intro i s t r h hr
  obtain hnone | ⟨st, q, hq, hlength⟩ := exec_answersWithLength i s t h
  · simp [hnone] at hr
  · obtain rfl : r = ⟨st, q⟩ := by simpa [hr] using hq
    exact hlength

end Sys2Proof.Machine

/-! # Commands that draw no entropy can be exchanged between the engines (spec/20_memory.md R33 (c))

Such a command gives one response and writes the engines at most, and what it gives and writes does not depend on the
responses already given. -/

namespace Sys2Proof.Machine

/-- The block with `rs` as the responses given so far. -/
def withResponses (rs : List Response) (s : State) : State := { s with responses := rs }

/-- `r`, the answer at `s`, is one response and a write to the engines at most; `r' rs`, the answer with the responses `rs`
given before, is the same response and the same write. -/
def AnswersOnce (s : State) (r : Result) (r' : List Response → Result) : Prop :=
  ∃ st q u, r = .next (respond st q u) ∧ u = withPcg u.pcg (withXo u.xo s) ∧
    ∀ rs, r' rs = .next (respond st q (withResponses rs u))

theorem answersOnce_respond {st : Status} {q : List Byte} {s u : State} (hu : u = withPcg u.pcg (withXo u.xo s)) :
    AnswersOnce s (.next (respond st q u)) fun rs => .next (respond st q (withResponses rs u)) :=
  ⟨st, q, u, rfl, hu, fun _ => rfl⟩

section Operations

variable {s : State} {b : Bool} {body : Result} {body' : List Response → Result} (hbody : AnswersOnce s body body')
include hbody

theorem answersOnce_requireSeeded :
    AnswersOnce s (requireSeeded b s body) fun rs => requireSeeded b (withResponses rs s) (body' rs) := by
  cases b with
  | false => exact answersOnce_respond rfl
  | true => exact hbody

theorem answersOnce_requirePresent :
    AnswersOnce s (requirePresent b s body) fun rs => requirePresent b (withResponses rs s) (body' rs) := by
  cases b with
  | false => exact answersOnce_respond rfl
  | true => exact hbody

end Operations

theorem exec_answersOnce {i : Instr} (hi : i.command.drawsEntropy = false) (s : State) :
    AnswersOnce s (exec i s) fun rs => exec i (withResponses rs s) := by
  cases i with
  | pcgSeed seed seq => exact answersOnce_respond rfl
  | pcgNext32 => exact answersOnce_requireSeeded (answersOnce_respond rfl)
  | pcgNext64 => exact answersOnce_requireSeeded (answersOnce_respond rfl)
  | pcgFill len => exact answersOnce_requireSeeded (answersOnce_respond rfl)
  | pcgTryfill len => exact answersOnce_requireSeeded (answersOnce_respond rfl)
  | pcgAdvance delta => exact answersOnce_requirePresent (answersOnce_requireSeeded (answersOnce_respond rfl))
  | pcgSave => exact answersOnce_requirePresent (answersOnce_requireSeeded (answersOnce_respond rfl))
  | pcgLoad st ic =>
    refine answersOnce_requirePresent ?_
    split
    · exact answersOnce_respond rfl
    · exact answersOnce_respond rfl
  | pcgStat => exact answersOnce_respond rfl
  | xoSeed w0 w1 w2 w3 => exact answersOnce_respond rfl
  | xoNext32 => exact answersOnce_requireSeeded (answersOnce_respond rfl)
  | xoNext64 => exact answersOnce_requireSeeded (answersOnce_respond rfl)
  | xoFill len => exact answersOnce_requireSeeded (answersOnce_respond rfl)
  | xoTryfill len => exact answersOnce_requireSeeded (answersOnce_respond rfl)
  | xoJump => exact answersOnce_requireSeeded (answersOnce_respond rfl)
  | xoSave => exact answersOnce_requirePresent (answersOnce_requireSeeded (answersOnce_respond rfl))
  | xoLoad w0 w1 w2 w3 =>
    refine answersOnce_requirePresent ?_
    split
    · exact answersOnce_respond rfl
    · exact answersOnce_respond rfl
  | xoStat => exact answersOnce_respond rfl
  | pcgSeedrng | xoSeedrng => cases hi

/-- A PCG command that draws no entropy answers once and leaves a PCG engine `e`, both whatever was answered before. -/
theorem exec_next_of_not_draws_pcg {i : Instr} (hp : i.command.onPcg = true) (hd : i.command.drawsEntropy = false)
    (s : State) : ∃ st q e, exec i s = .next (respond st q (withPcg e s)) ∧
      ∀ rs, exec i (withResponses rs s) = .next (respond st q (withPcg e (withResponses rs s))) := by
  obtain ⟨st, q, u, hexec, hu, hrs⟩ := exec_answersOnce hd s
  have hxo : u.xo = s.xo := exec_keeps_xo (t := respond st q u) hp hexec
  obtain ⟨e, rfl⟩ : ∃ e, u = withPcg e s := ⟨u.pcg, hu.trans (congrArg (fun e => withPcg u.pcg (withXo e s)) hxo)⟩
  exact ⟨st, q, e, hexec, hrs⟩

/-- An XO command that draws no entropy answers once and leaves an XO engine `e`, both whatever was answered before. -/
theorem exec_next_of_not_draws_xo {i : Instr} (hp : i.command.onPcg = false) (hd : i.command.drawsEntropy = false)
    (s : State) : ∃ st q e, exec i s = .next (respond st q (withXo e s)) ∧
      ∀ rs, exec i (withResponses rs s) = .next (respond st q (withXo e (withResponses rs s))) := by
  obtain ⟨st, q, u, hexec, hu, hrs⟩ := exec_answersOnce hd s
  have hpcg : u.pcg = s.pcg := exec_keeps_pcg (t := respond st q u) hp hexec
  obtain ⟨e, rfl⟩ : ∃ e, u = withXo e s := ⟨u.xo, hu.trans (congrArg (fun e => withPcg e (withXo u.xo s)) hpcg)⟩
  exact ⟨st, q, e, hexec, hrs⟩

theorem exec_next_withXo {i : Instr} (hp : i.command.onPcg = true) (e : XoEngine) {s t : State}
    (h : exec i s = .next t) : exec i (withXo e s) = .next (withXo e t) :=
  (exec_withXo hp e s).trans (congrArg (mapNext (withXo e)) h)

theorem exec_next_withPcg {i : Instr} (hp : i.command.onPcg = false) (e : PcgEngine) {s t : State}
    (h : exec i s = .next t) : exec i (withPcg e s) = .next (withPcg e t) :=
  (exec_withPcg hp e s).trans (congrArg (mapNext (withPcg e)) h)

/-- Two commands that draw no entropy run one right after the other. -/
theorem execAll_pair {i j : Instr} {s t u : State} (hi : i.command.drawsEntropy = false)
    (hj : j.command.drawsEntropy = false) (hit : exec i s = .next t) (hju : exec j t = .next u) :
    execAll [i, j] s = .next u := by
  rw [execAll_cons_of_ends _ hit (inProgress_of_not_draws hi t), execAll_cons_of_ends _ hju (inProgress_of_not_draws hj u),
    execAll_nil]

/-- Settles O44: the command that runs second sees another engine of the other kind (R2) and one more response in the record,
and neither changes what it does. -/
theorem pcgAndXoCommandsCommute : Obligations.PcgAndXoCommandsCommute := by
  unfold Obligations.PcgAndXoCommandsCommute
  intro p x s hp hx hdp hdx
  obtain ⟨stp, qp, ep, hexecp, hrsp⟩ := exec_next_of_not_draws_pcg hp hdp s
  obtain ⟨stx, qx, ex, hexecx, hrsx⟩ := exec_next_of_not_draws_xo hx hdx s
  have hsecondx : exec x (respond stp qp (withPcg ep s)) =
      .next (withPcg ep (respond stx qx (withXo ex (withResponses (s.responses ++ [⟨stp, qp⟩]) s)))) :=
    exec_next_withPcg hx ep (hrsx _)
  have hsecondp : exec p (respond stx qx (withXo ex s)) =
      .next (withXo ex (respond stp qp (withPcg ep (withResponses (s.responses ++ [⟨stx, qx⟩]) s)))) :=
    exec_next_withXo hp ex (hrsp _)
  exact ⟨_, _, ⟨stp, qp⟩, ⟨stx, qx⟩, execAll_pair hdp hdx hexecp hsecondx, execAll_pair hdx hdp hexecx hsecondp, rfl,
    rfl, List.append_assoc _ _ _, List.append_assoc _ _ _⟩

end Sys2Proof.Machine

/-! # Commands that change nothing (spec/20_memory.md R31) -/

namespace Sys2Proof.Machine

/-- `r` answers `s` with one response added. -/
def OnlyAnswers (s : State) (r : Result) : Prop :=
  ∃ a : Response, r = .next { s with responses := s.responses ++ [a] }

theorem onlyAnswers_finish (q : List Byte) (s : State) : OnlyAnswers s (finish q s) := ⟨⟨.ok, q⟩, rfl⟩

theorem onlyAnswers_requireSeeded (b : Bool) {s : State} {body : Result} (hbody : OnlyAnswers s body) :
    OnlyAnswers s (requireSeeded b s body) := by
  cases b with
  | false => exact ⟨⟨.notSeeded, []⟩, rfl⟩
  | true => exact hbody

theorem onlyAnswers_requirePresent (b : Bool) {s : State} {body : Result} (hbody : OnlyAnswers s body) :
    OnlyAnswers s (requirePresent b s body) := by
  cases b with
  | false => exact ⟨⟨.illegalCmd, []⟩, rfl⟩
  | true => exact hbody

/-- A fill of length 0 makes no draw, so it writes back the state it found (R54). -/
theorem fillPcg_zero_onlyAnswers (s : State) : OnlyAnswers s (fillPcg 0 s) :=
  onlyAnswers_requireSeeded _ (onlyAnswers_finish [] s)

theorem fillXo_zero_onlyAnswers (s : State) : OnlyAnswers s (fillXo 0 s) :=
  onlyAnswers_requireSeeded _ (onlyAnswers_finish [] s)

/-- Without a set bit in `delta` the composed map is the identity (R75). -/
@[simp] theorem pcgAdvance_zero (st inc : Word) : pcgAdvance st inc 0 = st := by
  simp [pcgAdvance, pcgAdvanceLoop]

theorem execPcgAdvance_zero_onlyAnswers (s : State) : OnlyAnswers s (execPcgAdvance 0 s) := by
  unfold execPcgAdvance
  rw [pcgAdvance_zero]
  exact onlyAnswers_requirePresent _ (onlyAnswers_requireSeeded _ (onlyAnswers_finish [] s))

/-- Settles O50: each command finishes in the state it found, or is turned away by a check. -/
theorem idleCommandsChangeNothing : Obligations.IdleCommandsChangeNothing := by
  unfold Obligations.IdleCommandsChangeNothing
  intro s i hi
  simp only [List.mem_cons, List.not_mem_nil, or_false] at hi
  obtain rfl | rfl | rfl | rfl | rfl | rfl | rfl | rfl | rfl := hi
  · exact onlyAnswers_requirePresent _ (onlyAnswers_requireSeeded _ (onlyAnswers_finish _ s))
  · exact onlyAnswers_requirePresent _ (onlyAnswers_requireSeeded _ (onlyAnswers_finish _ s))
  · exact onlyAnswers_finish _ s
  · exact onlyAnswers_finish _ s
  · exact fillPcg_zero_onlyAnswers s
  · exact fillPcg_zero_onlyAnswers s
  · exact fillXo_zero_onlyAnswers s
  · exact fillXo_zero_onlyAnswers s
  · exact execPcgAdvance_zero_onlyAnswers s

end Sys2Proof.Machine

/-! # Frames and commands (spec/30_encoding.md R37 to R41, R46, R50): encoding and decoding are inverse -/

namespace Sys2Proof.Machine

/-- Assembling the operands of a command's own payload gives the command back (R40, R41). -/
@[simp] theorem assemble_payload (i : Instr) : i.command.assemble i.payload = i := by
  cases i with
  | pcgSeed | pcgLoad => simp [Instr.command, Instr.payload, Command.assemble]
  | xoSeed | xoLoad => simp [Instr.command, Instr.payload, Command.assemble]
  | pcgFill | pcgTryfill | pcgAdvance | xoFill | xoTryfill => simp [Instr.command, Instr.payload, Command.assemble]
  | pcgSeedrng | pcgNext32 | pcgNext64 | pcgSave | pcgStat => rfl
  | xoSeedrng | xoNext32 | xoNext64 | xoJump | xoSave | xoStat => rfl

theorem decode_encode {p : Params} {i : Instr} (hi : i.wf p = true) : decode p (encode i) = .ok i := by
  have hpresent : i.command.present p = true := (present_command p i).trans hi
  rw [encode, decode_code hpresent (payload_length i), assemble_payload]

/-- Settles O1: the tables of decoder and encoder agree, and each operand is read from its own image. -/
theorem decodeReadsEveryEncoding : Obligations.DecodeReadsEveryEncoding := by
  unfold Obligations.DecodeReadsEveryEncoding
  exact fun _ _ => decode_encode

/-! ## A payload is the images of its operands -/

/-- The image of the operand at byte `a` is the eight bytes it was read from. -/
theorem bytesLe64_memRead64 {b : List Byte} {a : Nat} (h : a + 8 ≤ b.length) :
    bytesLe64 (memRead64 b a) = (b.drop a).take 8 := by
  refine bytesLe64_le64 _ ?_
  rw [List.length_take, List.length_drop]
  omega

/-- Putting the operand at byte `a` before the bytes that follow it. -/
theorem bytesLe64_memRead64_append_drop {b : List Byte} {a : Nat} (h : a + 8 ≤ b.length) :
    bytesLe64 (memRead64 b a) ++ b.drop (a + 8) = b.drop a := by
  rw [bytesLe64_memRead64 h, ← List.drop_drop, List.take_append_drop]

/-- The operand at the last eight bytes. -/
theorem bytesLe64_memRead64_last {b : List Byte} {a : Nat} (h : b.length = a + 8) :
    bytesLe64 (memRead64 b a) = b.drop a := by
  rw [← bytesLe64_memRead64_append_drop h.ge, List.drop_of_length_le h.le, List.append_nil]

theorem image_of_length_8 {b : List Byte} (h : b.length = 8) : bytesLe64 (memRead64 b 0) = b :=
  bytesLe64_memRead64_last h

theorem images_of_length_16 {b : List Byte} (h : b.length = 16) :
    bytesLe64 (memRead64 b 0) ++ bytesLe64 (memRead64 b 8) = b := by
  rw [bytesLe64_memRead64_last (a := 8) h]
  exact bytesLe64_memRead64_append_drop (by omega)

theorem images_of_length_32 {b : List Byte} (h : b.length = 32) :
    bytesLe64 (memRead64 b 0) ++ bytesLe64 (memRead64 b 8) ++ bytesLe64 (memRead64 b 16) ++ bytesLe64 (memRead64 b 24) =
      b := by
  rw [List.append_assoc, List.append_assoc, bytesLe64_memRead64_last (a := 24) h,
    bytesLe64_memRead64_append_drop (a := 16) (by omega), bytesLe64_memRead64_append_drop (a := 8) (by omega)]
  exact bytesLe64_memRead64_append_drop (by omega)

/-- A payload of a command's length is the payload of what it assembles to: no byte of it is ignored (R40, R46). -/
theorem payload_assemble {c : Command} {b : List Byte} (h : b.length = c.payloadLength) : (c.assemble b).payload = b := by
  cases c with
  | pcgSeed | pcgLoad => exact images_of_length_16 h
  | xoSeed | xoLoad => exact images_of_length_32 h
  | pcgFill | pcgTryfill | pcgAdvance | xoFill | xoTryfill => exact image_of_length_8 h
  | pcgSeedrng | pcgNext32 | pcgNext64 | pcgSave | pcgStat => exact (List.eq_nil_of_length_eq_zero h).symm
  | xoSeedrng | xoNext32 | xoNext64 | xoJump | xoSave | xoStat => exact (List.eq_nil_of_length_eq_zero h).symm

/-- Settles O2: the command word is the one of the operation it maps to, and the payload is that of its operands. -/
theorem decodedFrameIsItsEncoding : Obligations.DecodedFrameIsItsEncoding := by
  unfold Obligations.DecodedFrameIsItsEncoding
  intro p f i h
  obtain ⟨c, hc, hpresent, hlength, rfl⟩ := decode_ok h
  refine ⟨by rw [← present_command, command_assemble, hpresent], ?_⟩
  rw [encode, command_assemble, code_of_commandOf _ _ hc, payload_assemble hlength]

/-- Settles O5: each frame is the encoding of its command, byte by byte. -/
theorem specFramesDecode : Obligations.SpecFramesDecode := by
  unfold Obligations.SpecFramesDecode
  intro x hx
  have hencoded : x.2.wf Config.defaultParams = true ∧ encode x.2 = x.1 := by
    revert x
    decide
  obtain ⟨hwf, hframe⟩ := hencoded
  rw [← hframe, decode_encode hwf]

end Sys2Proof.Machine

/-! # Illegal frames (spec/30_encoding.md R44, R45) -/

namespace Sys2Proof.Machine

/-! ## The three ways a frame does not decode, in the order of R50 -/

theorem decode_of_unmapped {p : Params} {f : Frame} {e : Illegal} (hc : commandOf f.cmd = .error e) :
    decode p f = .error e := by
  simp only [decode, hc]

theorem decode_of_absent {p : Params} {f : Frame} {c : Command} (hc : commandOf f.cmd = .ok c)
    (hp : c.present p = false) : decode p f = .error .gatedOff := by
  simp only [decode, hc, hp, if_true]

theorem exists_decode_error_iff {p : Params} {f : Frame} {c : Command} (hc : commandOf f.cmd = .ok c) :
    (∃ e, decode p f = .error e) ↔ c.present p = false ∨ f.payload.length ≠ c.payloadLength := by
  by_cases hp : c.present p = false
  · simp [decode_of_absent hc hp, hp]
  · by_cases hl : f.payload.length = c.payloadLength <;> simp [decode, hc, hp, hl]

/-! ## The clauses of R44 on the command word -/

/-- Clauses (a), (b) and (c): the command words outside the opcode map R39. -/
theorem commandOf_isOk_eq_false_iff : ∀ b : Byte, (commandOf b).isOk = false ↔
    b.toNat / 32 ≠ 0 ∨ 0xB ≤ b.toNat % 16 ∨ b = 0x07#8 ∨ b = 0x16#8 := by
  decide

/-- Clause (d): the command words of R45 in a build that lacks them. -/
theorem present_eq_false_iff (p : Params) (c : Command) : c.present p = false ↔
    (p.hasPcgAdvance = false ∧ c.code = 0x06#8) ∨
      (p.hasPersist = false ∧ c.code ∈ [0x08#8, 0x09#8, 0x18#8, 0x19#8]) := by
  cases c <;> simp [Command.present, Command.code]

/-- Clause (e): the table R40 by command word is the table by operation. -/
theorem r40Length_code (c : Command) : r40Length c.code = c.payloadLength := by
  cases c <;> rfl

/-! ## The obligations -/

/-- R44: a frame is illegal exactly under the clauses (a) to (c), (d), (e). -/
theorem exists_decode_error_iff_clauses (p : Params) (f : Frame) : (∃ e, decode p f = .error e) ↔
    (f.cmd.toNat / 32 ≠ 0 ∨ 0xB ≤ f.cmd.toNat % 16 ∨ f.cmd = 0x07#8 ∨ f.cmd = 0x16#8 ∨
      (p.hasPcgAdvance = false ∧ f.cmd = 0x06#8) ∨
      (p.hasPersist = false ∧ f.cmd ∈ [0x08#8, 0x09#8, 0x18#8, 0x19#8]) ∨
      f.payload.length ≠ r40Length f.cmd) := by
  cases hc : commandOf f.cmd with
  | error e =>
    have hclauses := (commandOf_isOk_eq_false_iff f.cmd).mp (by rw [hc]; rfl)
    refine iff_of_true ⟨e, decode_of_unmapped hc⟩ ?_
    tauto
  | ok c =>
    have hmapped : ¬((commandOf f.cmd).isOk = false) := by rw [hc]; exact Bool.noConfusion
    simp only [commandOf_isOk_eq_false_iff, not_or] at hmapped
    obtain ⟨hreserved, hop, hjump, hadvance⟩ := hmapped
    rw [exists_decode_error_iff hc, present_eq_false_iff, ← r40Length_code, code_of_commandOf _ _ hc, or_assoc,
      or_iff_right hreserved, or_iff_right hop, or_iff_right hjump, or_iff_right hadvance]

/-- With all parameters true every command word of the opcode map is legal. -/
theorem present_of_full {p : Params} (ha : p.hasPcgAdvance = true) (hs : p.hasPersist = true) (c : Command) :
    c.present p = true := by
  have habsent : ¬(c.present p = false) := by simp [present_eq_false_iff, ha, hs]
  simpa using habsent

/-- The 20 words of the opcode map (R39). -/
theorem mapped_words : (List.range 256).filter (fun n => (commandOf (BitVec.ofNat 8 n)).isOk) =
    [0x00, 0x01, 0x02, 0x03, 0x04, 0x05, 0x06, 0x08, 0x09, 0x0A,
     0x10, 0x11, 0x12, 0x13, 0x14, 0x15, 0x17, 0x18, 0x19, 0x1A] := by
  decide

/-- Settles O3: by the clauses of R44, the step on an illegal frame, and the words of the opcode map. -/
theorem illegalFramesAndTheirAnswer : Obligations.IllegalFramesAndTheirAnswer := by
  unfold Obligations.IllegalFramesAndTheirAnswer
  refine ⟨exists_decode_error_iff_clauses, fun s f rest e => step_of_illegal, fun p ha hs => ?_⟩
  rw [← mapped_words]
  refine List.filter_congr fun n _ => ?_
  cases commandOf (BitVec.ofNat 8 n) with
  | ok c => exact present_of_full ha hs c
  | error e => rfl

theorem decode_of_gated_word {p : Params} {f : Frame}
    (h : (p.hasPcgAdvance = false ∧ f.cmd = 0x06#8) ∨
      (p.hasPersist = false ∧ f.cmd ∈ [0x08#8, 0x09#8, 0x18#8, 0x19#8])) : decode p f = .error .gatedOff := by
  simp only [List.mem_cons, List.not_mem_nil, or_false] at h
  obtain ⟨hp, hcmd⟩ | ⟨hp, hcmd | hcmd | hcmd | hcmd⟩ := h
  · exact decode_of_absent (c := .pcgAdvance) (by rw [hcmd]; rfl) hp
  · exact decode_of_absent (c := .pcgSave) (by rw [hcmd]; rfl) hp
  · exact decode_of_absent (c := .pcgLoad) (by rw [hcmd]; rfl) hp
  · exact decode_of_absent (c := .xoSave) (by rw [hcmd]; rfl) hp
  · exact decode_of_absent (c := .xoLoad) (by rw [hcmd]; rfl) hp

theorem ConstructsPcg.keeps_params {f : State → Result} {s t : State} (h : ConstructsPcg f s t) :
    t.params = s.params := by
  obtain ⟨hparams, -⟩ := h
  exact hparams

theorem ConstructsXo.keeps_params {f : State → Result} {s t : State} (h : ConstructsXo f s t) :
    t.params = s.params := by
  obtain ⟨hparams, -⟩ := h
  exact hparams

theorem exec_keeps_params {i : Instr} {s t : State} (h : exec i s = .next t) : t.params = s.params := by
  cases hp : i.command.onPcg with
  | true =>
    cases hc : i.command.constructs with
    | true => exact (exec_constructs_pcg hc hp h).keeps_params
    | false =>
      obtain ⟨st, q, w, rfl⟩ := exec_next_of_not_constructs_pcg hc hp h
      rfl
  | false =>
    cases hc : i.command.constructs with
    | true => exact (exec_constructs_xo hc hp h).keeps_params
    | false =>
      obtain ⟨st, q, w, -, rfl⟩ := exec_next_of_not_constructs_xo hc hp h
      rfl

theorem resume_keeps_params {d : SeedDraw} {s t : State} (h : resume d s = .next t) : t.params = s.params := by
  cases d with
  | pcgSeedrng => exact (awaitPcgSeed_constructs h).keeps_params
  | xoSeedrng => exact (awaitXoSeed_constructs h).keeps_params

theorem step_keeps_params {s t : State} (h : step s = .next t) : t.params = s.params := by
  obtain ⟨rest, -, rfl⟩ | ⟨d, -, -, h⟩ | ⟨f, rest, i, -, -, -, h⟩ | ⟨f, rest, e, -, -, -, rfl⟩ | ⟨-, -, rfl⟩ := step_next h
  · rfl
  · exact resume_keeps_params h
  · exact exec_keeps_params (s := { s with hostEvents := rest }) h
  · rfl
  · rfl

/-- Settles O4: a gated word fails the gate of R50 step (3), and none of the five kinds of step writes a parameter. -/
theorem gatesAreFixed : Obligations.GatesAreFixed := by
  unfold Obligations.GatesAreFixed
  exact ⟨fun _ _ => decode_of_gated_word, fun _ _ => step_keeps_params⟩

end Sys2Proof.Machine

/-! # A presented frame is answered once, or waits for entropy (spec/40_generator_interface.md R51, R58, R62) -/

namespace Sys2Proof.Machine

theorem awaitPcgSeed_answers (s : State) : ∃ t, awaitPcgSeed s = .next t := by
  unfold awaitPcgSeed
  split <;> exact ⟨_, rfl⟩

theorem awaitXoSeed_answers (s : State) : ∃ t, awaitXoSeed s = .next t := by
  unfold awaitXoSeed
  dsimp only
  split <;> exact ⟨_, rfl⟩

/-- A command that draws no entropy answers once, and leaves the ports to the host and to the source as they were. -/
theorem exec_responds_of_not_draws {i : Instr} (hi : i.command.drawsEntropy = false) (s : State) :
    ∃ t r, exec i s = .next t ∧ t.hostEvents = s.hostEvents ∧ t.inFlight = s.inFlight ∧
      t.responses = s.responses ++ [r] := by
  obtain ⟨st, q, u, hexec, hu, -⟩ := exec_answersOnce hi s
  refine ⟨_, ⟨st, q⟩, hexec, ?_⟩
  rw [hu]
  exact ⟨rfl, rfl, rfl⟩

/-- What an idle block does with a decoded command: it responds once, or the command is a `SEEDRNG` now in progress. -/
theorem exec_respondsOrWaits (i : Instr) {s : State} (hs : s.inFlight = none) :
    ∃ t, exec i s = .next t ∧ t.hostEvents = s.hostEvents ∧
      ((t.inFlight = none ∧ ∃ r, t.responses = s.responses ++ [r]) ∨
       (t.responses = s.responses ∧
        ((t.inFlight = some .pcgSeedrng ∧ i = .pcgSeedrng) ∨ (t.inFlight = some .xoSeedrng ∧ i = .xoSeedrng)))) := by
  cases hi : i.command.drawsEntropy with
  | false =>
    obtain ⟨t, r, hexec, hev, hd, hr⟩ := exec_responds_of_not_draws hi s
    exact ⟨t, hexec, hev, .inl ⟨hd.trans hs, r, hr⟩⟩
  | true =>
    cases i with
    | pcgSeedrng =>
      obtain ⟨t, ht⟩ := awaitPcgSeed_answers (request 16 s)
      obtain ⟨hev, ⟨hd, hr⟩ | hends⟩ := awaitPcgSeed_waitsOrEnds ht
      · exact ⟨t, ht, hev, .inr ⟨hr, .inl ⟨hd, rfl⟩⟩⟩
      · exact ⟨t, ht, hev, .inl hends⟩
    | xoSeedrng =>
      obtain ⟨t, ht⟩ := awaitXoSeed_answers (request 32 s)
      obtain ⟨hev, ⟨hd, hr⟩ | hends⟩ := awaitXoSeed_waitsOrEnds ht
      · exact ⟨t, ht, hev, .inr ⟨hr, .inr ⟨hd, rfl⟩⟩⟩
      · exact ⟨t, ht, hev, .inl hends⟩
    | pcgSeed | pcgNext32 | pcgNext64 | pcgFill | pcgTryfill | pcgAdvance | pcgSave | pcgLoad | pcgStat => cases hi
    | xoSeed | xoNext32 | xoNext64 | xoFill | xoTryfill | xoJump | xoSave | xoLoad | xoStat => cases hi

/-- Settles O9: an illegal frame is answered at once, and a command by `exec_respondsOrWaits`. -/
theorem frameGetsOneResponse : Obligations.FrameGetsOneResponse := by
  unfold Obligations.FrameGetsOneResponse
  intro s f rest hp
  have ⟨hidle, _⟩ := hp
  cases hf : decode s.params f with
  | error e =>
    exact ⟨_, step_of_illegal hp hf, rfl, .inl ⟨hidle, _, rfl⟩⟩
  | ok i =>
    rw [step_of_command hp hf]
    obtain ⟨t, hexec, hev, hends | ⟨hr, hwaits⟩⟩ := exec_respondsOrWaits i (s := { s with hostEvents := rest }) hidle
    · exact ⟨t, hexec, hev, .inl hends⟩
    · exact ⟨t, hexec, hev, .inr ⟨hr, by simpa using hwaits⟩⟩

end Sys2Proof.Machine

/-! # Cloning: `SAVE` here, `LOAD` there (spec/30_encoding.md R49; spec/40_generator_interface.md R61) -/

namespace Sys2Proof.Machine

section Clone

variable {s : State} (hpersist : s.params.hasPersist = true)
include hpersist

theorem execPcgSave_of_seeded (hs : s.pcg.seeded = true) :
    execPcgSave s = .next (respond .ok (bytesLe64 s.pcg.state ++ bytesLe64 s.pcg.inc) s) :=
  (requirePresent_of_present hpersist _ _).trans (requireSeeded_of_seeded hs _ _)

theorem execXoSave_of_seeded (hs : s.xo.seeded = true) :
    execXoSave s = .next (respond .ok (bytesLe64 s.xo.words.s0 ++ bytesLe64 s.xo.words.s1 ++
      bytesLe64 s.xo.words.s2 ++ bytesLe64 s.xo.words.s3) s) :=
  (requirePresent_of_present hpersist _ _).trans (requireSeeded_of_seeded hs _ _)

theorem execPcgLoad_of_odd {st ic : Word} (hodd : ic.getLsbD 0 = true) :
    execPcgLoad st ic s = .next (respond .ok [] (buildPcg (st, ic) s)) :=
  (requirePresent_of_present hpersist _ _).trans (if_neg (by simp [hodd]))

theorem execXoLoad_of_ne_zero {w : XoWords} (hw : w ≠ xoZero) :
    execXoLoad w.s0 w.s1 w.s2 w.s3 s = .next (respond .ok [] (buildXo w s)) :=
  (requirePresent_of_present hpersist _ _).trans (if_neg hw)

/-- The step on a presented `PCG.LOAD` of the words of a seeded engine with `inc` odd builds that engine. -/
theorem step_pcgLoad {e : PcgEngine} {rest : List HostEvent} (hs : e.seeded = true) (hodd : e.inc.getLsbD 0 = true)
    (hp : s.Presents (encode (.pcgLoad e.state e.inc)) rest) :
    step s = .next (respond .ok [] { s with hostEvents := rest, pcg := e }) := by
  rw [step_of_command hp (decode_encode hpersist)]
  obtain ⟨st, ic, seeded⟩ := e
  obtain rfl : seeded = true := hs
  exact execPcgLoad_of_odd (s := { s with hostEvents := rest }) hpersist hodd

/-- The step on a presented `XO.LOAD` of the words of a seeded engine, not all zero, builds that engine. -/
theorem step_xoLoad {e : XoEngine} {rest : List HostEvent} (hs : e.seeded = true) (hw : e.words ≠ xoZero)
    (hp : s.Presents (encode (.xoLoad e.words.s0 e.words.s1 e.words.s2 e.words.s3)) rest) :
    step s = .next (respond .ok [] { s with hostEvents := rest, xo := e }) := by
  rw [step_of_command hp (decode_encode hpersist)]
  obtain ⟨words, seeded⟩ := e
  obtain rfl : seeded = true := hs
  exact execXoLoad_of_ne_zero (s := { s with hostEvents := rest }) hpersist hw

end Clone

/-- Settles O48: what `SAVE` answers is the payload of the `LOAD` of the same words, which reads back those words (O1). -/
theorem saveThenLoadClones : Obligations.SaveThenLoadClones := by
  unfold Obligations.SaveThenLoadClones
  constructor
  · intro a b hpersist hs hodd
    exact ⟨_, _, execPcgSave_of_seeded hpersist hs, rfl, fun rest hb hp => step_pcgLoad hb hs (hodd hs) hp⟩
  · intro a b hpersist hs hnz
    exact ⟨_, _, execXoSave_of_seeded hpersist hs, rfl, fun rest hb hp => step_xoLoad hb hs (hnz hs) hp⟩

end Sys2Proof.Machine

/-! # A frame and its command; a fill and its draws (spec/40_generator_interface.md R51, R54, R60) -/

namespace Sys2Proof.Machine

/-- Settles O6: it is the command case of what a step answers. -/
theorem stepRunsDecodedCommand : Obligations.StepRunsDecodedCommand := by
  unfold Obligations.StepRunsDecodedCommand
  exact fun _ _ _ _ => step_of_command

section Fill

variable {σ : Type} (next64 : σ → Word × σ)

theorem drawWords_length (m : Nat) (e : σ) : (drawWords next64 m e).1.length = m := by
  induction m generalizing e with
  | zero => rfl
  | succ k ih => simp [drawWords, ih]

/-- The images of `m` draws are `8 m` bytes (R26). -/
theorem drawWords_images_length (m : Nat) (e : σ) : ((drawWords next64 m e).1.flatMap bytesLe64).length = 8 * m := by
  simp [List.length_flatMap, drawWords_length, Nat.mul_comm]

/-- The loop of `Fill` gives the images of its draws, cut to the bytes asked for (R54): a cut past the eight bytes of the first
image goes on with `left - 8` in the others. -/
theorem fillLoop_eq_drawWords (draws left : Nat) (e : σ) :
    fillLoop next64 draws left e =
      (((drawWords next64 draws e).1.flatMap bytesLe64).take left, (drawWords next64 draws e).2) := by
  induction draws generalizing left e with
  | zero => simp [fillLoop, drawWords]
  | succ k ih =>
    have hfirst : (bytesLe64 (next64 e).1).take (min 8 left) = (bytesLe64 (next64 e).1).take left := by
      rw [List.take_eq_take_iff, bytesLe64_length, min_right_comm, min_self, min_comm]
    simp [fillLoop, drawWords, ih, List.take_append, hfirst]

theorem fill_eq_drawWords (n : Nat) (e : σ) :
    fill next64 n e = (((drawWords next64 ((n + 7) / 8) e).1.flatMap bytesLe64).take n,
      (drawWords next64 ((n + 7) / 8) e).2) :=
  fillLoop_eq_drawWords _ _ _ _

/-- A fill of whole words cuts nothing off (R60). -/
theorem fill_eight_mul (m : Nat) (e : σ) :
    fill next64 (8 * m) e = ((drawWords next64 m e).1.flatMap bytesLe64, (drawWords next64 m e).2) := by
  have hdraws : (8 * m + 7) / 8 = m := by omega
  rw [fill_eq_drawWords, hdraws, List.take_of_length_le (drawWords_images_length next64 m e).le]

end Fill

/-- Settles O21: the fill of `n` bytes and the full one are cut from the images of the same draws. -/
theorem fillConsistency : Obligations.FillConsistency := by
  unfold Obligations.FillConsistency
  refine fun σ next64 e => ⟨fun m => fill_eight_mul next64 m e, fun n => ?_⟩
  rw [fill_eight_mul, fill_eq_drawWords]

end Sys2Proof.Machine

/-! # What `PCG.SEEDRNG` does with its reply (spec/41_pcg.md R66, R69; spec/40_generator_interface.md R57) -/

namespace Sys2Proof.Machine

/-- The forced odd `inc` of R66 as a sum: the shift leaves bit 0 free. -/
theorem shiftLeft_one_or_one (w : Word) : (w <<< 1) ||| 1#64 = 2#64 * w + 1#64 := by
  have hdisjoint : (w <<< 1) &&& 1#64 = 0#64 := by simp [BitVec.and_one_eq_setWidth_ofBool_getLsbD]
  rw [← BitVec.add_eq_or_of_and_eq_zero _ _ hdisjoint, ← BitVec.twoPow_mul_eq_shiftLeft]
  rfl

/-- The closed form of R66: from state 0 the first throwaway draw leaves `inc`, and the second steps `inc + seed`. -/
theorem pcgConstruct_eq (seed seq : Word) : pcgConstruct seed seq =
    (6364136223846793005#64 * ((2#64 * seq + 1#64) + seed) + (2#64 * seq + 1#64), 2#64 * seq + 1#64) := by
  simp only [pcgConstruct, pcgNext32, pcgStep, Config.multiplier, shiftLeft_one_or_one, BitVec.mul_zero, BitVec.zero_add]

theorem pcgConstructBytes_take (b : List Byte) : pcgConstructBytes (b.take 16) =
    pcgConstruct (le64 (b.take 8)) (le64 ((b.drop 8).take 8)) := by
  simp [pcgConstructBytes, memRead64, List.take_take, List.drop_take]

section Await

variable {s : State} {rest : List EntropyEvent}

theorem awaitPcgSeed_of_fail {e : ErrorCode} (he : s.entropy = .fail e :: rest) :
    awaitPcgSeed s = .next (respond .entropyFail (bytesLe32 e) (drawn rest s)) := by
  simp only [awaitPcgSeed, he, raise]

theorem awaitPcgSeed_of_nil (he : s.entropy = []) : awaitPcgSeed s = .next { s with inFlight := some .pcgSeedrng } := by
  simp only [awaitPcgSeed, he, stall]

theorem awaitPcgSeed_of_notYet (he : s.entropy = .notYet :: rest) :
    awaitPcgSeed s = .next { s with inFlight := some .pcgSeedrng, entropy := rest } := by
  simp only [awaitPcgSeed, he, stall]

end Await

/-- Settles O16: the command waits with its request out, and there is one case for each thing the source can do. -/
theorem pcgSeedrngAnswers : Obligations.PcgSeedrngAnswers := by
  unfold Obligations.PcgSeedrngAnswers
  refine ⟨fun s b rest he => ?_, fun s e rest he => ?_, fun s he => ?_, fun s rest he => ?_⟩
  · have hok := awaitPcgSeed_of_ok (s := request 16 s) he
    rw [pcgConstructBytes_take, pcgConstruct_eq] at hok
    exact hok
  · exact awaitPcgSeed_of_fail (s := request 16 s) he
  · exact awaitPcgSeed_of_nil (s := request 16 s) he
  · exact awaitPcgSeed_of_notYet (s := request 16 s) he

end Sys2Proof.Machine

/-! # What a command reads (spec/40_generator_interface.md R53, R57, R62)

The engines, the parameters and the entropy events to come, and nothing of the rest: on two blocks equal in these a command
has one and the same effect, whatever frames wait, whatever was answered and requested before, and whatever was in progress. -/

namespace Sys2Proof.Machine

/-- The two blocks are equal in everything a command reads. -/
def SameReadings (a b : State) : Prop :=
  a.pcg = b.pcg ∧ a.xo = b.xo ∧ a.params = b.params ∧ a.entropy = b.entropy

/-! ## A wait for the entropy source -/

/-- The effect of one wait: the engines, the entropy events to come and the command in progress it leaves, and what it adds to
the responses and to the requests. -/
structure DrawEffect where
  pcg : PcgEngine
  xo : XoEngine
  entropy : List EntropyEvent
  inFlight : Option SeedDraw
  responses : List Response
  requests : List Nat

/-- The block `s` after the effect `f`. -/
def DrawEffect.on (f : DrawEffect) (s : State) : State :=
  { s with
    pcg := f.pcg, xo := f.xo, entropy := f.entropy, inFlight := f.inFlight
    responses := s.responses ++ f.responses, requests := s.requests ++ f.requests }

/-- `PCG.SEEDRNG` has its one request out already, and makes no other (R69). -/
theorem awaitPcgSeed_alike {a b : State} (h : SameReadings a b) :
    ∃ f : DrawEffect, f.requests = [] ∧ awaitPcgSeed a = .next (f.on a) ∧ awaitPcgSeed b = .next (f.on b) := by
  obtain ⟨hpcg, hxo, -, hent⟩ := h
  unfold awaitPcgSeed
  rw [← hent]
  match a.entropy with
  | [] =>
    exact ⟨⟨a.pcg, a.xo, [], some .pcgSeedrng, [], []⟩, rfl, by simp [stall, DrawEffect.on, hpcg, hxo]⟩
  | .notYet :: rest =>
    exact ⟨⟨a.pcg, a.xo, rest, some .pcgSeedrng, [], []⟩, rfl, by simp [stall, DrawEffect.on, hpcg, hxo]⟩
  | .fail e :: rest =>
    exact ⟨⟨a.pcg, a.xo, rest, none, [⟨.entropyFail, bytesLe32 e⟩], []⟩, rfl, by
      simp [raise, respond, drawn, DrawEffect.on, hpcg, hxo]⟩
  | .ok r :: rest =>
    exact ⟨⟨(buildPcg (pcgConstructBytes (r.toList.take 16)) a).pcg, a.xo, rest, none, [⟨.ok, []⟩], []⟩, rfl, by
      simp [finish, respond, buildPcg, drawn, DrawEffect.on, hxo]⟩

/-- `XO.SEEDRNG` makes one further request for each all-zero reply (R90). -/
theorem awaitXoSeed_alike {a b : State} (h : SameReadings a b) :
    ∃ f : DrawEffect, awaitXoSeed a = .next (f.on a) ∧ awaitXoSeed b = .next (f.on b) := by
  obtain ⟨hpcg, hxo, -, hent⟩ := h
  unfold awaitXoSeed
  rw [← hent]
  obtain ⟨stop, further, rest⟩ := xoSeedLoop a.entropy
  cases stop with
  | waiting =>
    exact ⟨⟨a.pcg, a.xo, rest, some .xoSeedrng, [], List.replicate further 32⟩, by
      simp [stall, DrawEffect.on, hpcg, hxo]⟩
  | failed e =>
    exact ⟨⟨a.pcg, a.xo, rest, none, [⟨.entropyFail, bytesLe32 e⟩], List.replicate further 32⟩, by
      simp [raise, respond, drawn, DrawEffect.on, hpcg, hxo]⟩
  | seed w =>
    exact ⟨⟨a.pcg, ⟨w, true⟩, rest, none, [⟨.ok, []⟩], List.replicate further 32⟩, by
      simp [finish, respond, buildXo, drawn, DrawEffect.on, hpcg]⟩

theorem resume_alike (d : SeedDraw) {a b : State} (h : SameReadings a b) :
    ∃ f : DrawEffect, resume d a = .next (f.on a) ∧ resume d b = .next (f.on b) := by
  cases d with
  | pcgSeedrng =>
    obtain ⟨f, -, hf⟩ := awaitPcgSeed_alike h
    exact ⟨f, hf⟩
  | xoSeedrng => exact awaitXoSeed_alike h

/-- A command that draws entropy makes its first request, then waits (R57). -/
theorem exec_of_draws {i : Instr} (hi : i.command.drawsEntropy = true) :
    ∃ d n, ∀ s, exec i s = resume d (request n s) := by
  cases i with
  | pcgSeedrng => exact ⟨.pcgSeedrng, 16, fun _ => rfl⟩
  | xoSeedrng => exact ⟨.xoSeedrng, 32, fun _ => rfl⟩
  | pcgSeed | pcgNext32 | pcgNext64 | pcgFill | pcgTryfill | pcgAdvance | pcgSave | pcgLoad | pcgStat => cases hi
  | xoSeed | xoNext32 | xoNext64 | xoFill | xoTryfill | xoJump | xoSave | xoLoad | xoStat => cases hi

theorem sameReadings_request (n : Nat) (s : State) : SameReadings (request n s) s := ⟨rfl, rfl, rfl, rfl⟩

/-- Settles O17: the first request is in the record only, which a wait does not read, so the wait has the same effect without
it; what it adds to the requests stands behind that one. -/
theorem waitingCommandTakesItsReply : Obligations.WaitingCommandTakesItsReply := by
  unfold Obligations.WaitingCommandTakesItsReply
  constructor
  · intro s u hd hev h
    obtain ⟨f, hnone, hexec, hawait⟩ := awaitPcgSeed_alike (sameReadings_request 16 s)
    obtain rfl : f.on (request 16 s) = u := by simpa using hexec.symm.trans h
    rw [step_of_inFlight hd hev, resume, hawait]
    simp [DrawEffect.on, hnone, request]
  · intro s u hd hev h
    obtain ⟨f, hexec, hawait⟩ := awaitXoSeed_alike (sameReadings_request 32 s)
    obtain rfl : f.on (request 32 s) = u := by simpa using hexec.symm.trans h
    rw [step_of_inFlight hd hev, resume, hawait]
    simp [DrawEffect.on, request]

/-! ## Commands that draw no entropy -/

/-- Both answers are one response and a write to the engines at most, the same on `a` as on `b`. -/
def AnswersAlike (a b : State) (r r' : Result) : Prop :=
  ∃ st q e x, r = .next (respond st q (withPcg e (withXo x a))) ∧ r' = .next (respond st q (withPcg e (withXo x b)))

section Operations

variable {a b : State} (h : SameReadings a b)
include h

theorem answersAlike_respond (st : Status) (q : List Byte) :
    AnswersAlike a b (.next (respond st q a)) (.next (respond st q b)) := by
  obtain ⟨hpcg, hxo, -⟩ := h
  exact ⟨st, q, a.pcg, a.xo, rfl, by rw [hpcg, hxo]; rfl⟩

variable {present seeded : Bool} {body body' : Result} (hbody : AnswersAlike a b body body')
include hbody

theorem answersAlike_requireSeeded : AnswersAlike a b (requireSeeded seeded a body) (requireSeeded seeded b body') := by
  cases seeded with
  | false => exact answersAlike_respond h _ _
  | true => exact hbody

theorem answersAlike_requirePresent :
    AnswersAlike a b (requirePresent present a body) (requirePresent present b body') := by
  cases present with
  | false => exact answersAlike_respond h _ _
  | true => exact hbody

end Operations

/-- With the blocks taken apart into their fields and the equal ones identified, both answers are computed from the same
engines and parameters. -/
theorem exec_answersAlike {i : Instr} (hi : i.command.drawsEntropy = false) {a b : State} (h : SameReadings a b) :
    AnswersAlike a b (exec i a) (exec i b) := by
  have hsame := h
  obtain ⟨pcg, xo, params, _, _, entropy, _, _, _⟩ := a
  obtain ⟨pcg', xo', params', _, _, entropy', _, _, _⟩ := b
  obtain ⟨rfl, rfl, rfl, rfl⟩ : pcg = pcg' ∧ xo = xo' ∧ params = params' ∧ entropy = entropy' := hsame
  cases i with
  | pcgSeed | pcgStat | xoSeed | xoStat => exact ⟨_, _, _, _, rfl, rfl⟩
  | pcgNext32 | pcgNext64 | pcgFill | pcgTryfill => exact answersAlike_requireSeeded h ⟨_, _, _, _, rfl, rfl⟩
  | xoNext32 | xoNext64 | xoFill | xoTryfill | xoJump => exact answersAlike_requireSeeded h ⟨_, _, _, _, rfl, rfl⟩
  | pcgAdvance | pcgSave | xoSave =>
    exact answersAlike_requirePresent h (answersAlike_requireSeeded h ⟨_, _, _, _, rfl, rfl⟩)
  | pcgLoad | xoLoad =>
    refine answersAlike_requirePresent h ?_
    split
    · exact ⟨_, _, _, _, rfl, rfl⟩
    · exact ⟨_, _, _, _, rfl, rfl⟩
  | pcgSeedrng | xoSeedrng => cases hi

end Sys2Proof.Machine

/-! # Equal blocks answer equally (spec/40_generator_interface.md R53, R59)

Two runs go on side by side: every command and every wait adds the same responses to both and leaves them equal in what the
next one reads. -/

namespace Sys2Proof.Machine

/-- Both results are next states, related by `R`, and the same responses were added to those of `a` as to those of `b`. -/
def AnswersEqually (R : State → State → Prop) (a b : State) (r r' : Result) : Prop :=
  ∃ (t t' : State) (rs : List Response), r = .next t ∧ r' = .next t' ∧ R t t' ∧
    t.responses = a.responses ++ rs ∧ t'.responses = b.responses ++ rs

section Relation

variable {R R' : State → State → Prop} {a b : State}

theorem answersEqually_next (h : R a b) : AnswersEqually R a b (.next a) (.next b) :=
  ⟨a, b, [], rfl, rfl, h, (List.append_nil _).symm, (List.append_nil _).symm⟩

theorem AnswersEqually.andThen {r r' : Result} {f : State → Result} (h : AnswersEqually R a b r r')
    (hf : ∀ t t', R t t' → AnswersEqually R' t t' (f t) (f t')) :
    AnswersEqually R' a b (andThen r f) (andThen r' f) := by
  obtain ⟨t, t', rs, rfl, rfl, hR, hr, hr'⟩ := h
  obtain ⟨u, u', rs', hu, hu', hR', hru, hru'⟩ := hf t t' hR
  exact ⟨u, u', rs ++ rs', hu, hu', hR', by rw [hru, hr, List.append_assoc], by rw [hru', hr', List.append_assoc]⟩

end Relation

/-- The two blocks are equal in what a command reads, and `c` is in progress in both or in neither. -/
def SameDuring (c : Command) (a b : State) : Prop := SameReadings a b ∧ a.inProgress c = b.inProgress c

/-- A wait sets the field that says what is in progress, whatever it said before. -/
theorem resume_answersEqually (c : Command) (d : SeedDraw) {a b : State} (h : SameReadings a b) :
    AnswersEqually (SameDuring c) a b (resume d a) (resume d b) := by
  obtain ⟨f, ha, hb⟩ := resume_alike d h
  obtain ⟨-, -, hparams, -⟩ := h
  exact ⟨_, _, f.responses, ha, hb, ⟨⟨rfl, rfl, hparams, rfl⟩, rfl⟩, rfl, rfl⟩

theorem exec_answersEqually (i : Instr) {a b : State} (h : SameReadings a b) :
    AnswersEqually (SameDuring i.command) a b (exec i a) (exec i b) := by
  cases hi : i.command.drawsEntropy with
  | false =>
    obtain ⟨st, q, e, x, ha, hb⟩ := exec_answersAlike hi h
    obtain ⟨-, -, hparams, hent⟩ := h
    refine ⟨_, _, [⟨st, q⟩], ha, hb, ⟨⟨rfl, rfl, hparams, hent⟩, ?_⟩, rfl, rfl⟩
    rw [inProgress_of_not_draws hi, inProgress_of_not_draws hi]
  | true =>
    obtain ⟨d, n, hexec⟩ := exec_of_draws hi
    rw [hexec, hexec]
    exact resume_answersEqually i.command d (a := request n a) (b := request n b) h

theorem SeedDraw.command_injective {d d' : SeedDraw} (h : d.command = d'.command) : d = d' := by
  cases d <;> cases d' <;> trivial

theorem waitFor_answersEqually (fuel : Nat) {c : Command} {a b : State} (h : SameDuring c a b) :
    AnswersEqually (SameDuring c) a b (waitFor fuel c a) (waitFor fuel c b) := by
  induction fuel generalizing a b with
  | zero => exact answersEqually_next h
  | succ k ih =>
    have ⟨hsame, hprogress⟩ := h
    cases hp : a.inProgress c with
    | false =>
      rw [waitFor_of_not_inProgress _ hp, waitFor_of_not_inProgress _ (hprogress.symm.trans hp)]
      exact answersEqually_next h
    | true =>
      obtain ⟨d, hd, rfl⟩ := inProgress_iff.mp hp
      obtain ⟨d', hd', hcommand⟩ := inProgress_iff.mp (hprogress.symm.trans hp)
      obtain rfl := SeedDraw.command_injective hcommand
      rw [waitFor_succ k hd, waitFor_succ k hd']
      exact (resume_answersEqually _ _ hsame).andThen fun _ _ => ih

theorem execAll_answersEqually (is : List Instr) {a b : State} (h : SameReadings a b) :
    AnswersEqually SameReadings a b (execAll is a) (execAll is b) := by
  induction is generalizing a b with
  | nil => exact answersEqually_next h
  | cons i rest ih =>
    refine (exec_answersEqually i h).andThen fun t t' ht => ?_
    have hfuel : t.entropy.length = t'.entropy.length := by
      obtain ⟨⟨-, -, -, hent⟩, -⟩ := ht
      rw [hent]
    rw [hfuel]
    refine (waitFor_answersEqually _ ht).andThen fun u u' ⟨hu, hprogress⟩ => ?_
    rw [← hprogress]
    split
    · exact answersEqually_next hu
    · exact ih hu

/-- Settles O47: by induction on the commands (`execAll_answersEqually`). -/
theorem equalEnginesAnswerEqually : Obligations.EqualEnginesAnswerEqually := by
  unfold Obligations.EqualEnginesAnswerEqually
  intro is a b hpcg hxo hparams hent
  obtain ⟨ta, tb, rs, hta, htb, ⟨hpcg', hxo', -⟩, hr, hr'⟩ := execAll_answersEqually is ⟨hpcg, hxo, hparams, hent⟩
  exact ⟨ta, tb, rs, hta, htb, hpcg', hxo', hr, hr'⟩

end Sys2Proof.Machine

/-! # A run is the steps of the block on the frames of its commands (spec/70_reset_and_hazards.md R115, R121, R122) -/

namespace Sys2Proof.Machine

/-- The block with `ev` as what the host will do. -/
def withHostEvents (ev : List HostEvent) (s : State) : State := { s with hostEvents := ev }

/-- The host presents the frames of the commands `is`, in order. -/
def framesOf (is : List Instr) : List HostEvent := is.map fun i => .frame (encode i)

theorem framesOf_ne_reset (is : List Instr) (rest : List HostEvent) : framesOf is ≠ .reset :: rest := by
  cases is <;> simp [framesOf]

/-! ## What waits at the host port changes no answer -/

theorem sameReadings_withHostEvents (ev : List HostEvent) (s : State) : SameReadings s (withHostEvents ev s) :=
  ⟨rfl, rfl, rfl, rfl⟩

theorem resume_withHostEvents (d : SeedDraw) (ev : List HostEvent) {s t : State} (h : resume d s = .next t) :
    resume d (withHostEvents ev s) = .next (withHostEvents ev t) := by
  obtain ⟨f, hs, hev⟩ := resume_alike d (sameReadings_withHostEvents ev s)
  obtain rfl : f.on s = t := by simpa using hs.symm.trans h
  exact hev

theorem exec_withHostEvents {i : Instr} (ev : List HostEvent) {s t : State} (h : exec i s = .next t) :
    exec i (withHostEvents ev s) = .next (withHostEvents ev t) := by
  cases hi : i.command.drawsEntropy with
  | false =>
    obtain ⟨st, q, e, x, hs, hev⟩ := exec_answersAlike hi (sameReadings_withHostEvents ev s)
    obtain rfl : respond st q (withPcg e (withXo x s)) = t := by simpa using hs.symm.trans h
    exact hev
  | true =>
    obtain ⟨d, n, hexec⟩ := exec_of_draws hi
    rw [hexec] at h ⊢
    exact resume_withHostEvents d ev h

/-! ## The step on the frame of a command -/

theorem exec_of_absent {i : Instr} {s : State} (hi : i.wf s.params = false) :
    exec i s = .next (respond .illegalCmd [] s) := by
  cases i with
  | pcgAdvance | pcgSave | pcgLoad | xoSave | xoLoad => exact requirePresent_of_absent hi _ _
  | pcgSeed | pcgSeedrng | pcgNext32 | pcgNext64 | pcgFill | pcgTryfill | pcgStat => cases hi
  | xoSeed | xoSeedrng | xoNext32 | xoNext64 | xoFill | xoTryfill | xoJump | xoStat => cases hi

/-- The frame of a command runs it, also where the build lacks it: the frame is illegal then, and the command answers as an
illegal frame does (R45, R102). -/
theorem step_of_encoded {s : State} (hs : s.inFlight = none) (i : Instr) (ev : List HostEvent) :
    step (withHostEvents (.frame (encode i) :: ev) s) = exec i (withHostEvents ev s) := by
  have hp : (withHostEvents (.frame (encode i) :: ev) s).Presents (encode i) ev := ⟨hs, rfl⟩
  cases hi : i.wf s.params with
  | true => exact step_of_command hp (decode_encode hi)
  | false =>
    have habsent : i.command.present s.params = false := (present_command _ _).trans hi
    rw [step_of_illegal hp (decode_of_absent (commandOf_code _) habsent)]
    exact (exec_of_absent (s := withHostEvents ev s) hi).symm

/-! ## Runs of steps -/

theorem core_run_of_step {s t : State} (h : step s = .next t) (n : Nat) : core.run (n + 1) s = core.run n t :=
  (core_run_succ n s).trans (congrArg (fun r => andThen r (core.run n)) h)

theorem core_run_add (m n : Nat) {s t : State} (h : core.run m s = .next t) : core.run (m + n) s = core.run n t := by
  induction m generalizing s with
  | zero =>
    obtain rfl : s = t := by cases h; rfl
    rw [Nat.zero_add]
  | succ k ih =>
    obtain ⟨u, hstep, hrest⟩ := andThen_eq_next.mp ((core_run_succ k s).symm.trans h)
    rw [Nat.add_right_comm, core_run_of_step hstep, ih hrest]

/-! ## Waiting uses up the entropy events -/

theorem xoSeedLoop_entropy_length (events : List EntropyEvent) :
    (xoSeedLoop events).2.2.length ≤ events.length - 1 := by
  fun_induction xoSeedLoop events with
  | case4 b rest w hz r ih => exact ih.trans (Nat.sub_le _ _)
  | case1 | case2 | case3 | case5 => simp

/-- A wait takes at least one event, if there is any left. -/
theorem resume_entropy_length {d : SeedDraw} {s t : State} (h : resume d s = .next t) :
    t.entropy.length ≤ s.entropy.length - 1 := by
  cases d with
  | pcgSeedrng =>
    obtain ⟨he, rfl⟩ | ⟨rest, he, rfl⟩ | ⟨e, rest, he, rfl⟩ | ⟨b, rest, he, rfl⟩ := awaitPcgSeed_next h <;> simp [he]
  | xoSeedrng =>
    obtain ⟨-, rfl⟩ | ⟨e, -, rfl⟩ | ⟨w, -, rfl⟩ := awaitXoSeed_next h <;> exact xoSeedLoop_entropy_length _

theorem resume_answers (d : SeedDraw) (s : State) : ∃ t, resume d s = .next t := by
  cases d with
  | pcgSeedrng => exact awaitPcgSeed_answers s
  | xoSeedrng => exact awaitXoSeed_answers s

/-- How the command `c` of a run ends, `before` being the responses given before it: with one response; or never, in progress
with no entropy event left. -/
def EndsOrHangs (c : Command) (before : List Response) (t : State) : Prop :=
  (t.inFlight = none ∧ ∃ r, t.responses = before ++ [r]) ∨ (t.inProgress c = true ∧ t.entropy = [])

/-- Waiting for a command in progress is steps of the block, which hold off the frames behind it (R115). -/
theorem waitFor_steps (is : List Instr) (fuel : Nat) {d : SeedDraw} {s : State} (hd : s.inFlight = some d)
    (hfuel : s.entropy.length ≤ fuel) :
    ∃ (t : State) (n : Nat), waitFor fuel d.command s = .next t ∧
      core.run n (withHostEvents (framesOf is) s) = .next (withHostEvents (framesOf is) t) ∧
      EndsOrHangs d.command s.responses t := by
  induction fuel generalizing s with
  | zero =>
    have hempty : s.entropy = [] := List.eq_nil_of_length_eq_zero (Nat.le_zero.mp hfuel)
    exact ⟨s, 0, rfl, rfl, .inr ⟨inProgress_iff.mpr ⟨d, hd, rfl⟩, hempty⟩⟩
  | succ k ih =>
    obtain ⟨u, hu⟩ := resume_answers d s
    have hstep : step (withHostEvents (framesOf is) s) = .next (withHostEvents (framesOf is) u) :=
      (step_of_inFlight (s := withHostEvents (framesOf is) s) hd (framesOf_ne_reset is)).trans
        (resume_withHostEvents d _ hu)
    rw [waitFor_succ k hd, hu, andThen_next]
    obtain ⟨-, ⟨hwaits, hr⟩ | hends⟩ := resume_waitsOrEnds hu
    · have hlength := resume_entropy_length hu
      obtain ⟨t, n, hwait, hrun, ht⟩ := ih hwaits (by omega)
      exact ⟨t, n + 1, hwait, (core_run_of_step hstep n).trans hrun, hr ▸ ht⟩
    · have ⟨hidle, _⟩ := hends
      exact ⟨u, 1, waitFor_of_not_inProgress _ (inProgress_of_idle hidle _), core_run_of_step hstep 0, .inl hends⟩

/-- One command of a run, waited for, is steps of the block that accept its frame and none behind it. -/
theorem command_steps (i : Instr) (rest : List Instr) {s : State} (hs : s.inFlight = none) :
    ∃ (t u : State) (n : Nat), exec i s = .next t ∧ waitFor t.entropy.length i.command t = .next u ∧
      core.run n (withHostEvents (framesOf (i :: rest)) s) = .next (withHostEvents (framesOf rest) u) ∧
      EndsOrHangs i.command s.responses u := by
  obtain ⟨t, ht, -, hanswer⟩ := exec_respondsOrWaits i hs
  have hstep : step (withHostEvents (framesOf (i :: rest)) s) = .next (withHostEvents (framesOf rest) t) :=
    (step_of_encoded hs i (framesOf rest)).trans (exec_withHostEvents _ ht)
  obtain hends | ⟨hr, hwaits⟩ := hanswer
  · have ⟨hidle, _⟩ := hends
    exact ⟨t, t, 1, ht, waitFor_of_not_inProgress _ (inProgress_of_idle hidle _), core_run_of_step hstep 0, .inl hends⟩
  · obtain ⟨d, hd, hcommand⟩ : ∃ d, t.inFlight = some d ∧ d.command = i.command := by
      obtain ⟨hd, rfl⟩ | ⟨hd, rfl⟩ := hwaits
      · exact ⟨_, hd, rfl⟩
      · exact ⟨_, hd, rfl⟩
    obtain ⟨u, n, hwait, hrun, hu⟩ := waitFor_steps rest t.entropy.length hd le_rfl
    exact ⟨t, u, n + 1, ht, hcommand ▸ hwait, (core_run_of_step hstep n).trans hrun, hcommand ▸ hr ▸ hu⟩

/-- Settles O51: by induction on the commands. Each one is the steps of `command_steps`; the run goes on where it ends, and
stops, with the frames behind it not accepted, where it hangs. -/
theorem runIsStepsOfItsFrames : Obligations.RunIsStepsOfItsFrames := by
  unfold Obligations.RunIsStepsOfItsFrames
  intro is
  induction is with
  | nil => exact fun s hs => ⟨s, 0, 0, rfl, rfl, .inl ⟨hs, le_rfl, rfl⟩⟩
  | cons i rest ih =>
    intro s hs
    obtain ⟨t, u, m, hexec, hwait, hsteps, ⟨hidle, r, hr⟩ | ⟨hprogress, hempty⟩⟩ := command_steps i rest hs
    · obtain ⟨v, n, k, hall, hrun, hv⟩ := ih u hidle
      refine ⟨v, m + n, k + 1, ?_, (core_run_add m n hsteps).trans hrun, ?_⟩
      · simp [execAll, hexec, hwait, inProgress_of_idle hidle, hall]
      · refine hv.imp_left fun ⟨hv, hk, hlength⟩ => ⟨hv, Nat.succ_le_succ hk, ?_⟩
        simp only [hlength, hr, List.length_append, List.length_cons, List.length_nil]
        omega
    · refine ⟨u, m, 1, ?_, hsteps, .inr ⟨?_, hempty⟩⟩
      · simp [execAll, hexec, hwait, hprogress]
      · obtain ⟨d, hd, -⟩ := inProgress_iff.mp hprogress
        simp [hd]

end Sys2Proof.Machine

/-! # The PCG step counted (spec/41_pcg.md R63, R74, R75, R80) -/

namespace Sys2Proof.Machine

/-! ## The loop of R75 runs `delta` single steps -/

/-- The map `x ↦ m * x + c` that the loop of R75 composes with itself, given by its multiplier and its increment. -/
def affine (m c x : Word) : Word := m * x + c

/-- `pcgSteps` (R74) as the iterate of one map, for the library's rules on iterates. -/
theorem pcgSteps_eq_iterate (s inc : Word) (n : Nat) : pcgSteps s inc n = (affine Config.multiplier inc)^[n] s := by
  induction n with
  | zero => rfl
  | succ k ih => rw [Function.iterate_succ_apply', ← ih, pcgSteps, pcgStep, affine]

theorem pcgSteps_add (s inc : Word) (m n : Nat) : pcgSteps (pcgSteps s inc m) inc n = pcgSteps s inc (m + n) := by
  simp only [pcgSteps_eq_iterate, Nat.add_comm m n, Function.iterate_add_apply]

/-- The squaring of R75 is the map run twice. -/
theorem affine_iterate_two (m c : Word) : (affine m c)^[2] = affine (m * m) ((m + 1#64) * c) := by
  funext x
  show m * (m * x + c) + c = m * m * x + (m + 1) * c
  ring

/-- One round of R75 composes the current map onto the accumulated one when the low bit of the count is set. -/
theorem affine_accumulate (odd : Bool) (accMult accPlus m c x : Word) :
    affine (if odd then accMult * m else accMult) (if odd then accPlus * m + c else accPlus) x =
      (affine m c)^[odd.toNat] (affine accMult accPlus x) := by
  cases odd with
  | false => rfl
  | true =>
    show accMult * m * x + (accPlus * m + c) = m * (accMult * x + accPlus) + c
    ring

/-- A count is its low bit and twice the rest, the order in which the loop of R75 uses it up. -/
theorem toNat_eq_low_bit_add (d : Word) : d.toNat = 2 * (d >>> 1).toNat + (d.getLsbD 0).toNat := by
  rw [BitVec.toNat_ushiftRight, Nat.shiftRight_one, BitVec.getLsbD, Nat.toNat_testBit, pow_zero, Nat.div_one,
    Nat.div_add_mod]

/-- The invariant of the loop: what is accumulated, followed by the current map as often as the count still says. -/
theorem affine_pcgAdvanceLoop (fuel : Nat) (accMult accPlus m c d x : Word) (hd : d.toNat < 2 ^ fuel) :
    affine (pcgAdvanceLoop fuel accMult accPlus m c d).1 (pcgAdvanceLoop fuel accMult accPlus m c d).2 x =
      (affine m c)^[d.toNat] (affine accMult accPlus x) := by
  induction fuel generalizing accMult accPlus m c d with
  | zero =>
    have hzero : d.toNat = 0 := by omega
    rw [hzero]
    rfl
  | succ k ih =>
    rw [pcgAdvanceLoop]
    split
    · next hzero => simp [hzero]
    · have hhalf := toNat_eq_low_bit_add d
      have hlt : (d >>> 1).toNat < 2 ^ k := by
        rw [pow_succ] at hd
        omega
      rw [ih _ _ _ _ _ hlt, affine_accumulate, ← affine_iterate_two, ← Function.iterate_mul, ← Function.iterate_add_apply,
        ← hhalf]

/-- The refinement of R75 to R74. -/
theorem pcgAdvance_eq_pcgSteps (s inc d : Word) : pcgAdvance s inc d = pcgSteps s inc d.toNat := by
  have hloop := affine_pcgAdvanceLoop 64 1#64 0#64 Config.multiplier inc d s d.isLt
  have hid : affine 1#64 0#64 s = s := by simp [affine]
  rw [hid, ← pcgSteps_eq_iterate] at hloop
  exact hloop

/-! ## The count matters mod `2^64` (R80) -/

/-- `n` steps move the state by a geometric sum of the multiplier, times what one step moves it by. -/
theorem pcgSteps_eq_add_geom_sum (s inc : Word) (n : Nat) :
    pcgSteps s inc n = s + (∑ i ∈ Finset.range n, Config.multiplier ^ i) * ((Config.multiplier - 1) * s + inc) := by
  induction n with
  | zero => simp [pcgSteps]
  | succ k ih =>
    rw [pcgSteps, ih, pcgStep, geom_sum_succ]
    ring

/-- The geometric sum of a number that is 1 mod 4 has as many factors 2 as its number of terms: the sum is
`(x^n - 1) / (x - 1)`, and the lifting of the exponent says how many `x^n - 1` has. -/
theorem two_pow_dvd_geom_sum_iff {x : ℤ} (hx : 4 ∣ x - 1) (hne : x ≠ 1) (k n : Nat) :
    2 ^ k ∣ ∑ i ∈ Finset.range n, x ^ i ↔ (2 : ℤ) ^ k ∣ n := by
  have hodd : ¬ (2 : ℤ) ∣ x := by omega
  have hfinite : emultiplicity 2 (x - 1) ≠ ⊤ :=
    finiteMultiplicity_iff_emultiplicity_ne_top.mp
      (Int.finiteMultiplicity_iff.mpr ⟨by decide, sub_ne_zero.mpr hne⟩)
  have hcount : emultiplicity 2 (∑ i ∈ Finset.range n, x ^ i) + emultiplicity 2 (x - 1) =
      emultiplicity 2 (n : ℤ) + emultiplicity 2 (x - 1) := by
    rw [← emultiplicity_mul Int.prime_two, geom_sum_mul, ← one_pow n, Int.two_pow_sub_pow' n hx hodd, one_pow, add_comm]
  rw [pow_dvd_iff_le_emultiplicity, pow_dvd_iff_le_emultiplicity, WithTop.add_right_cancel hfinite hcount]

/-- `M` is 1 mod 4, so its geometric sum of `n` terms vanishes in a word exactly when `2^64` divides `n`. -/
theorem multiplier_geom_sum_eq_zero_iff (n : Nat) :
    ∑ i ∈ Finset.range n, Config.multiplier ^ i = 0 ↔ 2 ^ 64 ∣ n := by
  have hcast : ∑ i ∈ Finset.range n, Config.multiplier ^ i =
      BitVec.ofNat 64 (∑ i ∈ Finset.range n, 6364136223846793005 ^ i) := by
    have hM : Config.multiplier = ((6364136223846793005 : ℕ) : Word) := rfl
    simp only [hM, ← BitVec.natCast_eq_ofNat, Nat.cast_sum, Nat.cast_pow]
  have hdvd := two_pow_dvd_geom_sum_iff (x := 6364136223846793005) (by norm_num) (by norm_num) 64 n
  rw [hcast, ← BitVec.toNat_inj, BitVec.toNat_ofNat]
  exact Nat.dvd_iff_mod_eq_zero.symm.trans (mod_cast hdvd)

/-- A multiple of `2^64` steps changes nothing, for every `inc`. -/
theorem pcgSteps_of_dvd (s inc : Word) {n : Nat} (hn : 2 ^ 64 ∣ n) : pcgSteps s inc n = s := by
  rw [pcgSteps_eq_add_geom_sum, (multiplier_geom_sum_eq_zero_iff n).mpr hn, zero_mul, add_zero]

theorem pcgSteps_mod (s inc : Word) (n : Nat) : pcgSteps s inc (n % 2 ^ 64) = pcgSteps s inc n := by
  conv_rhs => rw [← Nat.div_add_mod n (2 ^ 64), ← pcgSteps_add, pcgSteps_of_dvd s inc (Nat.dvd_mul_right _ _)]

/-- One step of an odd `inc` moves every state by an odd amount, since `M - 1` is even. -/
theorem pcgStep_move_odd (s : Word) {inc : Word} (hinc : inc.getLsbD 0 = true) :
    ((Config.multiplier - 1) * s + inc).toNat % 2 = 1 := by
  have hodd : inc.toNat % 2 = 1 := by simpa [BitVec.getLsbD] using hinc
  have heven : (Config.multiplier - 1) * s = 6364136223846793004#64 * s := rfl
  rw [heven, BitVec.toNat_add, BitVec.toNat_mul, BitVec.toNat_ofNat]
  omega

/-- With an odd `inc` the state returns to its start exactly after the multiples of `2^64` steps: an odd factor can be
cancelled, so that the geometric sum itself has to vanish. -/
theorem pcgSteps_eq_self_iff (s : Word) {inc : Word} (hinc : inc.getLsbD 0 = true) (n : Nat) :
    pcgSteps s inc n = s ↔ 2 ^ 64 ∣ n := by
  refine ⟨fun h => ?_, pcgSteps_of_dvd s inc⟩
  have hmove := pcgStep_move_odd s hinc
  rw [pcgSteps_eq_add_geom_sum, add_eq_left] at h
  rw [← multiplier_geom_sum_eq_zero_iff]
  generalize ∑ i ∈ Finset.range n, Config.multiplier ^ i = g at h ⊢
  generalize (Config.multiplier - 1) * s + inc = c at h hmove
  have hdvd : 2 ^ 64 ∣ g.toNat * c.toNat := by
    rw [Nat.dvd_iff_mod_eq_zero, ← BitVec.toNat_mul, h]
    rfl
  have hcoprime : Nat.Coprime (2 ^ 64) c.toNat := (Nat.coprime_two_left.mpr (Nat.odd_iff.mpr hmove)).pow_left 64
  exact BitVec.eq_of_toNat_eq (Nat.eq_zero_of_dvd_of_lt (hcoprime.dvd_of_dvd_mul_right hdvd) g.isLt)

theorem pcgAdvance_pcgAdvance (s inc a b : Word) :
    pcgAdvance (pcgAdvance s inc a) inc b = pcgAdvance s inc (a + b) := by
  simp only [pcgAdvance_eq_pcgSteps]
  rw [pcgSteps_add, BitVec.toNat_add, pcgSteps_mod]

/-! ## The obligations about the count -/

/-- Settles O23: an advance is a number of steps (`pcgAdvance_eq_pcgSteps`), which matters mod `2^64` only; a count and its
negative add up to none. -/
theorem pcgAdvancesCompose : Obligations.PcgAdvancesCompose := by
  unfold Obligations.PcgAdvancesCompose
  intro s inc a b
  refine ⟨pcgAdvance_pcgAdvance s inc a b, ?_⟩
  rw [pcgAdvance_pcgAdvance, show a + (0#64 - a) = 0 from add_sub_cancel a 0, pcgAdvance_zero]

/-- Settles O24: the counts that return to the start are the multiples of `2^64` (`pcgSteps_eq_self_iff`). -/
theorem pcgPeriodIsExactly : Obligations.PcgPeriodIsExactly := by
  unfold Obligations.PcgPeriodIsExactly
  intro s inc hinc
  refine ⟨pcgSteps_of_dvd s inc dvd_rfl, fun d => (pcgSteps_mod s inc d).symm, fun d hpos hlt h => ?_⟩
  exact Nat.not_dvd_of_pos_of_lt hpos hlt ((pcgSteps_eq_self_iff s hinc d).mp h)

end Sys2Proof.Machine

/-! # The frames and the answers of the PCG commands (spec/41_pcg.md R68 to R79) -/

namespace Sys2Proof.Machine

/-! ## Operands of a payload (spec/30_encoding.md R40, R41) -/

theorem memRead64_zero_of_length_8 {b : List Byte} (h : b.length = 8) : memRead64 b 0 = le64 b := by
  rw [memRead64, List.drop_zero, List.take_of_length_le h.le]

theorem memRead64_eight_of_length_16 {b : List Byte} (h : b.length = 16) : memRead64 b 8 = le64 (b.drop 8) := by
  rw [memRead64, List.take_of_length_le (by rw [List.length_drop, h])]

/-! ## An unseeded engine fails the check of R103 -/

/-- `exec_of_unseeded` where the build has the command. -/
theorem exec_of_unseeded_of_wf {i : Instr} {s : State} (hn : i.command.needsInstance = true)
    (hwf : i.wf s.params = true) (hs : s.seededFor i.command = false) :
    exec i s = .next (respond .notSeeded [] s) := by
  rw [exec_of_unseeded hn hs, if_pos hwf]

/-! ## A seeded engine passes the check of R103 -/

section Seeded

variable {s : State} (hs : s.pcg.seeded = true)
include hs

theorem execPcgNext32_of_seeded : execPcgNext32 s =
    .next (respond .ok (bytesLe32 (pcgOut s.pcg.state)) (writePcgState (pcgStep s.pcg.state s.pcg.inc) s)) :=
  requireSeeded_of_seeded hs _ _

theorem execPcgNext64_of_seeded : execPcgNext64 s =
    .next (respond .ok (bytesLe64 (pcgNext64 s.pcg.state s.pcg.inc).1)
      (writePcgState (pcgNext64 s.pcg.state s.pcg.inc).2 s)) :=
  requireSeeded_of_seeded hs _ _

theorem fillPcg_of_seeded (len : Word) : fillPcg len s =
    .next (respond .ok (fill pcgDraw64 len.toNat (s.pcg.state, s.pcg.inc)).1
      (writePcgState (fill pcgDraw64 len.toNat (s.pcg.state, s.pcg.inc)).2.1 s)) :=
  requireSeeded_of_seeded hs _ _

theorem execPcgAdvance_of_seeded (hadvance : s.params.hasPcgAdvance = true) (delta : Word) : execPcgAdvance delta s =
    .next (respond .ok [] (writePcgState (pcgAdvance s.pcg.state s.pcg.inc delta) s)) :=
  (requirePresent_of_present hadvance _ _).trans (requireSeeded_of_seeded hs _ _)

end Seeded

/-! ## One draw, two draws, a fill -/

/-- The rotation of R9 is the library's, for the counts R9 allows. -/
theorem rotr32_eq_rotateRight (v : Half) {r : Nat} (hr : r < 32) : rotr32 v r = v.rotateRight r := by
  rw [rotr32, BitVec.rotateRight_def, Nat.mod_eq_of_lt hr]
  split
  · next hzero => simp [hzero]
  · rfl

/-- The output permutation (R64) with the library's rotation and truncation. -/
theorem pcgOut_eq_rotateRight (w : Word) :
    pcgOut w = (BitVec.setWidth 32 (((w >>> 18) ^^^ w) >>> 27)).rotateRight (w.toNat / 2 ^ 59) := by
  have hcount : (w >>> 59).toNat = w.toNat / 2 ^ 59 := by rw [BitVec.toNat_ushiftRight, Nat.shiftRight_eq_div_pow]
  have hlt : w.toNat / 2 ^ 59 < 32 := by omega
  rw [pcgOut, hcount, trunc32, rotr32_eq_rotateRight _ hlt, BitVec.setWidth_eq_extractLsb' (by decide)]

/-- The two halves of a 64-bit draw (R71) as the library's concatenation. -/
theorem halves_eq_append (hi lo : Half) : (zext64 hi <<< 32) ||| zext64 lo = hi ++ lo := by
  rw [BitVec.append_def, BitVec.shiftLeftZeroExtend_eq, BitVec.setWidth'_eq]
  rfl

/-- The image of two halves is the low half's, then the high half's (R26). -/
theorem bytesLe64_halves (hi lo : Half) : bytesLe64 ((zext64 hi <<< 32) ||| zext64 lo) = bytesLe32 lo ++ bytesLe32 hi := by
  rw [halves_eq_append, bytesLe64, List.range_add (n := 4) (m := 4), List.map_append, List.map_map]
  congr 1
  · refine List.map_congr_left fun i hi => BitVec.extractLsb'_append_eq_of_add_le ?_
    have hlt := List.mem_range.mp hi
    omega
  · refine List.map_congr_left fun i _ => ?_
    have hbyte : 8 * (4 + i) - 32 = 8 * i := by omega
    rw [← hbyte]
    exact BitVec.extractLsb'_append_eq_of_le (start := 8 * (4 + i)) (by omega)

/-- `m` 64-bit draws are `2 m` steps, and `inc` stays (R71, R72). -/
theorem drawWords_pcgDraw64_engine (m : Nat) (s inc : Word) :
    (drawWords pcgDraw64 m (s, inc)).2 = (pcgSteps s inc (2 * m), inc) := by
  induction m generalizing s with
  | zero => rfl
  | succ k ih =>
    have hdraw : (pcgDraw64 (s, inc)).2 = (pcgSteps s inc 2, inc) := rfl
    rw [drawWords, hdraw, ih, pcgSteps_add, Nat.mul_succ, Nat.add_comm]

/-- What a fill does on a seeded engine (R54, R72, R73). -/
theorem fillPcg_eq_drawWords {s : State} (hs : s.pcg.seeded = true) (len : Word) : fillPcg len s =
    .next (respond .ok
      (((drawWords pcgDraw64 ((len.toNat + 7) / 8) (s.pcg.state, s.pcg.inc)).1.flatMap bytesLe64).take len.toNat)
      (writePcgState (pcgSteps s.pcg.state s.pcg.inc (2 * ((len.toNat + 7) / 8))) s)) := by
  rw [fillPcg_of_seeded hs, fill_eq_drawWords, drawWords_pcgDraw64_engine]

/-! ## `LOAD` and `STAT` -/

theorem execPcgLoad_of_even {s : State} {st ic : Word} (hpersist : s.params.hasPersist = true)
    (heven : ic.getLsbD 0 = false) : execPcgLoad st ic s = .next (respond .badState [] s) :=
  (requirePresent_of_present hpersist _ _).trans (if_pos heven)

/-- The byte a flag is shown as (R18). -/
theorem statusView_eq (seeded : Bool) : statusView seeded = if seeded then 0x01#8 else 0x00#8 := by
  cases seeded with
  | false => rfl
  | true => rfl

/-! ## The obligations about the commands -/

/-- Settles O19: the first draw is the high half, and the image of the result has the low half's bytes first. -/
theorem pcgNext64IsTwoDraws : Obligations.PcgNext64IsTwoDraws := by
  unfold Obligations.PcgNext64IsTwoDraws
  refine ⟨fun p => decode_code (c := .pcgNext64) rfl rfl, fun s => ⟨fun hs => ?_, ?_⟩⟩
  · refine ⟨_, _, _, _, execPcgNext32_of_seeded hs, rfl, execPcgNext32_of_seeded hs, rfl, ?_⟩
    rw [← bytesLe64_halves]
    exact execPcgNext64_of_seeded hs
  · exact exec_of_unseeded_of_wf (i := .pcgNext64) rfl rfl

/-- Settles O20: both commands are the one fill, cut from the images of its draws. -/
theorem pcgFillBytes : Obligations.PcgFillBytes := by
  unfold Obligations.PcgFillBytes
  constructor
  · intro p b hb
    rw [← memRead64_zero_of_length_8 hb]
    exact ⟨decode_code (c := .pcgFill) rfl hb, decode_code (c := .pcgTryfill) rfl hb⟩
  · intro len s i hi
    simp only [List.mem_cons, List.not_mem_nil, or_false] at hi
    obtain rfl | rfl := hi
    · exact ⟨fun hs => fillPcg_eq_drawWords hs len, exec_of_unseeded_of_wf (i := .pcgFill len) rfl rfl⟩
    · exact ⟨fun hs => fillPcg_eq_drawWords hs len, exec_of_unseeded_of_wf (i := .pcgTryfill len) rfl rfl⟩

/-- Settles O22: the loop the command runs is `delta` steps (`pcgAdvance_eq_pcgSteps`). -/
theorem pcgAdvanceIsDeltaSteps : Obligations.PcgAdvanceIsDeltaSteps := by
  unfold Obligations.PcgAdvanceIsDeltaSteps
  constructor
  · intro p b hadvance hb
    rw [← memRead64_zero_of_length_8 hb]
    exact decode_code (c := .pcgAdvance) hadvance hb
  · refine fun delta s => ⟨fun hadvance hs => ?_, fun hadvance hs => ?_, exec_of_absent (i := .pcgAdvance delta)⟩
    · rw [← pcgAdvance_eq_pcgSteps]
      exact execPcgAdvance_of_seeded hs hadvance delta
    · exact exec_of_unseeded_of_wf (i := .pcgAdvance delta) rfl hadvance hs

/-- Settles O15: two words of eight bytes each, and the closed form of R66 (`pcgConstruct_eq`). -/
theorem pcgSeedBuildsClosedForm : Obligations.PcgSeedBuildsClosedForm := by
  unfold Obligations.PcgSeedBuildsClosedForm
  constructor
  · intro p b hb
    rw [← memRead64_eight_of_length_16 hb]
    exact decode_code (c := .pcgSeed) rfl hb
  · intro seed seq s
    refine execPcgSeed_next.mpr ?_
    rw [pcgConstruct_eq]
    rfl

/-- Settles O18: the permuted old state, its four bytes, and one step. -/
theorem pcgNext32Draw : Obligations.PcgNext32Draw := by
  unfold Obligations.PcgNext32Draw
  refine ⟨fun p => decode_code (c := .pcgNext32) rfl rfl, fun s => ⟨fun hs => ?_, ?_⟩⟩
  · refine ⟨_, rfl, ?_⟩
    rw [← pcgOut_eq_rotateRight, ← bytesLe32_eq]
    exact execPcgNext32_of_seeded hs
  · exact exec_of_unseeded_of_wf (i := .pcgNext32) rfl rfl

/-- Settles O25: the gate, the seeded check, and the two images. -/
theorem pcgSaveShowsTheWords : Obligations.PcgSaveShowsTheWords := by
  unfold Obligations.PcgSaveShowsTheWords
  refine ⟨fun p hpersist => decode_code (c := .pcgSave) hpersist rfl, fun s => ⟨execPcgSave_of_seeded, ?_, ?_⟩⟩
  · exact exec_of_unseeded_of_wf (i := .pcgSave) rfl
  · exact exec_of_absent (i := .pcgSave)

/-- Settles O26: the image of `inc` is odd exactly when its bit 0 is set. -/
theorem pcgLoadStoresOrRefuses : Obligations.PcgLoadStoresOrRefuses := by
  unfold Obligations.PcgLoadStoresOrRefuses
  constructor
  · intro p b hpersist hb
    rw [← memRead64_eight_of_length_16 hb]
    exact decode_code (c := .pcgLoad) hpersist hb
  · refine fun st ic s => ⟨fun hpersist hodd => ?_, fun hpersist heven => ?_, exec_of_absent (i := .pcgLoad st ic)⟩
    · exact execPcgLoad_of_odd hpersist (by simpa [BitVec.getLsbD] using hodd)
    · exact execPcgLoad_of_even hpersist (by simpa [BitVec.getLsbD] using heven)

/-- Settles O27: the status view of a flag is its byte. -/
theorem statShowsTheFlag : Obligations.StatShowsTheFlag := by
  unfold Obligations.StatShowsTheFlag
  refine ⟨fun p => ⟨decode_code (c := .pcgStat) rfl rfl, decode_code (c := .xoStat) rfl rfl⟩, fun s => ?_⟩
  rw [← statusView_eq, ← statusView_eq]
  exact ⟨execPcgStat_next.mpr rfl, execXoStat_next.mpr rfl⟩

end Sys2Proof.Machine

/-! # The functions of the Xoshiro256** engine (spec/42_xoshiro.md R81 to R85, R95) -/

namespace Sys2Proof.Machine

/-! ## The scrambler (R81) -/

/-- The rotation of R9 is the library's, for the counts R9 allows. -/
theorem rotl64_eq_rotateLeft (a : Word) {k : Nat} (hk : k < 64) : rotl64 a k = a.rotateLeft k := by
  rw [rotl64, BitVec.rotateLeft_def, Nat.mod_eq_of_lt hk]
  split
  · next hzero => simp [hzero, BitVec.ushiftRight_eq_zero]
  · rfl

/-- A rotation to the right undoes the one to the left. -/
theorem rotateRight_rotateLeft {n : Nat} (x : BitVec n) (k : Nat) : (x.rotateLeft k).rotateRight k = x := by
  ext i hi
  have hk : k % n < n := Nat.mod_lt k (Nat.zero_lt_of_lt hi)
  rw [BitVec.getElem_rotateRight]
  split
  · next hlow => simp [BitVec.getElem_rotateLeft]
  · next hhigh =>
    have hwrap : i - (n - k % n) < k % n := by omega
    have hback : n - k % n + (i - (n - k % n)) = i := by omega
    simp only [BitVec.getElem_rotateLeft, hwrap, dif_pos, hback]

/-- The `s1` that gives the output `r`: the rotation back, between the inverses of 9 and of 5 modulo `2^64`. -/
def xoUnscramble (r : Word) : Word := (r * 0x8E38E38E38E38E39#64).rotateRight 7 * 0xCCCCCCCCCCCCCCCD#64

theorem xoOut_eq_rotateLeft (w : XoWords) : xoOut w = ((w.s1 * 5#64).rotateLeft 7) * 9#64 := by
  rw [xoOut, rotl64_eq_rotateLeft _ (by decide)]

theorem xoUnscramble_xoOut (w : XoWords) : xoUnscramble (xoOut w) = w.s1 := by
  have hnine : 9#64 * 0x8E38E38E38E38E39#64 = 1#64 := by decide
  have hfive : 5#64 * 0xCCCCCCCCCCCCCCCD#64 = 1#64 := by decide
  rw [xoUnscramble, xoOut_eq_rotateLeft, BitVec.mul_assoc, hnine, BitVec.mul_one, rotateRight_rotateLeft,
    BitVec.mul_assoc, hfive, BitVec.mul_one]

theorem xoOut_eq_iff {a b : XoWords} : xoOut a = xoOut b ↔ a.s1 = b.s1 := by
  constructor
  · intro h
    rw [← xoUnscramble_xoOut a, h, xoUnscramble_xoOut]
  · intro h
    rw [xoOut, h, xoOut]

@[simp] theorem xoOut_zero : xoOut xoZero = 0#64 := by decide

theorem xoOut_eq_zero_iff {w : XoWords} : xoOut w = 0#64 ↔ w.s1 = 0#64 :=
  xoOut_zero ▸ xoOut_eq_iff (b := xoZero)

/-- On a finite type it is enough that no output comes twice. -/
theorem xoOut_surjective : Function.Surjective fun x : Word => xoOut ⟨0#64, x, 0#64, 0#64⟩ :=
  Finite.surjective_of_injective fun _ _ h => xoOut_eq_iff.mp h

/-- Settles O29: the scrambler has an inverse (`xoUnscramble`), and `s1 = 0` gives 0. -/
theorem xoOutIsABijectionOfS1 : Obligations.XoOutIsABijectionOfS1 := by
  unfold Obligations.XoOutIsABijectionOfS1
  refine ⟨xoOut_eq_rotateLeft, fun _ _ => xoOut_eq_iff, fun r => ?_, fun _ => xoOut_eq_zero_iff⟩
  obtain ⟨x, hx⟩ := xoOut_surjective r
  exact ⟨x, fun w hw => (xoOut_eq_iff.mpr hw).trans hx⟩

/-! ## The step (R83 to R85) and the jump (R95) -/

/-- The closed form R84. -/
theorem xoStep_eq (w : XoWords) : xoStep w =
    { s0 := w.s0 ^^^ w.s1 ^^^ w.s3
      s1 := w.s0 ^^^ w.s1 ^^^ w.s2
      s2 := w.s0 ^^^ w.s2 ^^^ (w.s1 <<< 17)
      s3 := (w.s1 ^^^ w.s3).rotateLeft 45 } := by
  apply xoWords_ext
  · rw [xoStep_s0, BitVec.xor_comm w.s3, BitVec.xor_assoc]
  · rw [xoStep_s1, BitVec.xor_comm w.s2, ← BitVec.xor_assoc, BitVec.xor_comm w.s1]
  · rw [xoStep_s2, BitVec.xor_comm w.s2]
  · rw [xoStep_s3, BitVec.xor_comm w.s3, rotl64_eq_rotateLeft _ (by decide)]

theorem finite_xoWords : Finite XoWords :=
  Finite.of_injective (fun w : XoWords => (w.s0, w.s1, w.s2, w.s3)) fun a b h => by
    simp only [Prod.mk.injEq] at h
    obtain ⟨h0, h1, h2, h3⟩ := h
    exact xoWords_ext h0 h1 h2 h3

/-- A map of the states that is additive over exclusive or and sends only zero to zero is a bijection. -/
theorem bijective_of_additive {f : XoWords → XoWords} (hadd : ∀ a b, f (xoXor a b) = xoXor (f a) (f b))
    (hker : ∀ w, w ≠ xoZero → f w ≠ xoZero) : Function.Bijective f := by
  have hinj : Function.Injective f := fun a b h => by
    have hzero : f (xoXor a b) = xoZero := by rw [hadd, h, xoXor_self]
    exact xoXor_eq_zero.mp (not_imp_not.mp (hker _) hzero)
  have := finite_xoWords
  exact Finite.injective_iff_bijective.mp hinj

/-- Settles O30: the step is additive, and only zero steps to zero. -/
theorem xoStepIsALinearBijection : Obligations.XoStepIsALinearBijection := by
  unfold Obligations.XoStepIsALinearBijection
  exact ⟨xoStep_xor, xoStep_zero, xoOut_zero, bijective_of_additive xoStep_xor fun _ => xoStep_ne_zero,
    fun _ => xoStep_ne_zero⟩

theorem xoJump_xor (a b : XoWords) : xoJump (xoXor a b) = xoXor (xoJump a) (xoJump b) := by
  simp only [xoJump_eq_xoPoly, xoPoly_xor]

/-- Settles O38: the jump acts as a polynomial in the step, and is a number of steps, so it keeps a state non-zero. -/
theorem xoJumpIsALinearBijection : Obligations.XoJumpIsALinearBijection := by
  unfold Obligations.XoJumpIsALinearBijection
  refine ⟨xoJump_xor, ?_, fun w => ?_, bijective_of_additive xoJump_xor fun _ => xoJump_ne_zero, fun _ => xoJump_ne_zero⟩
  · rw [xoJump_eq_xoPoly, xoPoly_zero]
  · rw [xoJump_eq_xoPoly, xoJump_eq_xoPoly, xoPoly_step]

end Sys2Proof.Machine

/-! # The frames and the answers of the XO commands (spec/42_xoshiro.md R86 to R98) -/

namespace Sys2Proof.Machine

/-! ## Four words of a payload or of an entropy reply (R86) -/

/-- The last operand of a payload reads it to its end. -/
theorem memRead64_of_length {b : List Byte} {a : Nat} (h : b.length = a + 8) : memRead64 b a = le64 (b.drop a) := by
  rw [memRead64, List.take_of_length_le (by rw [List.length_drop, h, Nat.add_sub_cancel_left])]

theorem xoDecodeSeed_eq {b : List Byte} (hb : b.length = 32) : xoDecodeSeed b =
    { s0 := le64 (b.take 8)
      s1 := le64 ((b.drop 8).take 8)
      s2 := le64 ((b.drop 16).take 8)
      s3 := le64 (b.drop 24) } := by
  rw [← memRead64_of_length (a := 24) hb]
  rfl

theorem xoWords_eq_zero_iff {w0 w1 w2 w3 : Word} :
    (⟨w0, w1, w2, w3⟩ : XoWords) = xoZero ↔ w0 = 0#64 ∧ w1 = 0#64 ∧ w2 = 0#64 ∧ w3 = 0#64 := by
  rw [xoZero, XoWords.mk.injEq]

theorem mem_bytesLe64_zero {x : Byte} (h : x ∈ bytesLe64 0#64) : x = 0#8 := by
  simpa [bytesLe64_eq] using h

/-- Four zero words are 32 zero bytes. -/
theorem xoDecodeSeed_eq_zero_iff {b : List Byte} (hb : b.length = 32) : xoDecodeSeed b = xoZero ↔ ∀ x ∈ b, x = 0#8 := by
  constructor
  · intro hzero x hx
    obtain ⟨h0, h1, h2, h3⟩ := xoWords_eq_zero_iff.mp hzero
    rw [← images_of_length_32 hb, h0, h1, h2, h3] at hx
    simp only [List.mem_append, or_self] at hx
    exact mem_bytesLe64_zero hx
  · intro hzero
    rw [List.eq_replicate_of_mem hzero, hb]
    decide

/-! ## The checks passed -/

section Seeded

variable {s : State} (hs : s.xo.seeded = true)
include hs

theorem execXoNext32_of_seeded : execXoNext32 s =
    .next (respond .ok (bytesLe32 (trunc32 (xoOut s.xo.words))) (writeXoWords (xoStep s.xo.words) s)) :=
  requireSeeded_of_seeded hs _ _

theorem execXoNext64_of_seeded : execXoNext64 s =
    .next (respond .ok (bytesLe64 (xoOut s.xo.words)) (writeXoWords (xoStep s.xo.words) s)) :=
  requireSeeded_of_seeded hs _ _

theorem fillXo_of_seeded (len : Word) : fillXo len s =
    .next (respond .ok (fill xoNext64 len.toNat s.xo.words).1 (writeXoWords (fill xoNext64 len.toNat s.xo.words).2 s)) :=
  requireSeeded_of_seeded hs _ _

theorem execXoJump_of_seeded : execXoJump s = .next (respond .ok [] (writeXoWords (xoJump s.xo.words) s)) :=
  requireSeeded_of_seeded hs _ _

end Seeded

theorem execXoLoad_of_zero {s : State} (hpersist : s.params.hasPersist = true) :
    execXoLoad 0#64 0#64 0#64 0#64 s = .next (respond .badState [] s) :=
  (requirePresent_of_present hpersist _ _).trans (if_pos rfl)

/-! ## One draw, a fill, a jump -/

/-- The low half of a word has the first four bytes of its image (R26). -/
theorem bytesLe32_trunc32 (w : Word) : bytesLe32 (trunc32 w) = (bytesLe64 w).take 4 := by
  rw [bytesLe32, bytesLe64, ← List.map_take, List.take_range]
  refine List.map_congr_left fun i hi => BitVec.extractLsb'_extractLsb'_of_le ?_
  have hlt := List.mem_range.mp hi
  omega

/-- Settles O31: the scrambled old `s1`, and the closed form R84 of one step. -/
theorem xoNextDraws : Obligations.XoNextDraws := by
  unfold Obligations.XoNextDraws
  refine ⟨fun p => ⟨decode_code (c := .xoNext64) rfl rfl, decode_code (c := .xoNext32) rfl rfl⟩,
    fun s => ⟨fun hs => ?_, fun hs => ⟨?_, ?_⟩⟩⟩
  · refine ⟨xoOut s.xo.words, xoStep s.xo.words, xoOut_eq_rotateLeft _, xoStep_eq _, execXoNext64_of_seeded hs, ?_⟩
    rw [← bytesLe32_trunc32]
    exact execXoNext32_of_seeded hs
  · exact exec_of_unseeded_of_wf (i := .xoNext64) rfl rfl hs
  · exact exec_of_unseeded_of_wf (i := .xoNext32) rfl rfl hs

/-- `m` draws are `m` steps (R82, R93). -/
theorem drawWords_xoNext64_words (m : Nat) (w : XoWords) : (drawWords xoNext64 m w).2 = xoSteps w m := by
  induction m generalizing w with
  | zero => rfl
  | succ k ih =>
    have hdraw : (xoNext64 w).2 = xoSteps w 1 := rfl
    rw [drawWords, hdraw, ih, xoSteps_add, Nat.add_comm]

/-- What a fill does on a seeded engine (R54, R93, R94). -/
theorem fillXo_eq_drawWords {s : State} (hs : s.xo.seeded = true) (len : Word) : fillXo len s =
    .next (respond .ok
      (((drawWords xoNext64 ((len.toNat + 7) / 8) s.xo.words).1.flatMap bytesLe64).take len.toNat)
      (writeXoWords (xoSteps s.xo.words ((len.toNat + 7) / 8)) s)) := by
  rw [fillXo_of_seeded hs, fill_eq_drawWords, drawWords_xoNext64_words]

/-- Settles O36: both commands are the one fill, cut from the images of its draws. -/
theorem xoFillBytes : Obligations.XoFillBytes := by
  unfold Obligations.XoFillBytes
  constructor
  · intro p b hb
    rw [← memRead64_zero_of_length_8 hb]
    exact ⟨decode_code (c := .xoFill) rfl hb, decode_code (c := .xoTryfill) rfl hb⟩
  · intro len s i hi
    simp only [List.mem_cons, List.not_mem_nil, or_false] at hi
    obtain rfl | rfl := hi
    · exact ⟨fun hs => fillXo_eq_drawWords hs len, exec_of_unseeded_of_wf (i := .xoFill len) rfl rfl⟩
    · exact ⟨fun hs => fillXo_eq_drawWords hs len, exec_of_unseeded_of_wf (i := .xoTryfill len) rfl rfl⟩

/-- Settles O37: the 256 positions of the jump are `2^128` steps (`xoJump_eq_xoSteps`). -/
theorem xoJumpIsTwoPow128Steps : Obligations.XoJumpIsTwoPow128Steps := by
  unfold Obligations.XoJumpIsTwoPow128Steps
  refine ⟨fun p => decode_code (c := .xoJump) rfl rfl, fun s => ⟨fun hs => ?_, ?_⟩⟩
  · rw [← xoJump_eq_xoSteps]
    exact execXoJump_of_seeded hs
  · exact exec_of_unseeded_of_wf (i := .xoJump) rfl rfl

/-! ## Constructing an engine: `SEED`, `SEEDRNG`, `LOAD` -/

@[simp] theorem xoConstruct_zero (p : Params) : xoConstruct p xoZero = zeroSeedSubst p := if_pos rfl

theorem xoConstruct_of_ne_zero (p : Params) {w : XoWords} (hw : w ≠ xoZero) : xoConstruct p w = w := if_neg hw

theorem execXoSeed_zero (s : State) :
    execXoSeed 0#64 0#64 0#64 0#64 s = .next (respond .ok [] (buildXo (zeroSeedSubst s.params) s)) := by
  rw [execXoSeed_next, ← xoConstruct_zero, xoZero]

theorem execXoSeed_of_ne_zero {w : XoWords} (hw : w ≠ xoZero) (s : State) :
    execXoSeed w.s0 w.s1 w.s2 w.s3 s = .next (respond .ok [] (buildXo w s)) := by
  rw [execXoSeed_next, xoConstruct_of_ne_zero _ hw]

/-- Settles O32: four words of eight bytes each, substituted exactly when all are zero. -/
theorem xoSeedKeepsOrSubstitutes : Obligations.XoSeedKeepsOrSubstitutes := by
  unfold Obligations.XoSeedKeepsOrSubstitutes
  constructor
  · intro p b hb
    rw [← memRead64_of_length (a := 24) hb]
    exact decode_code (c := .xoSeed) rfl hb
  · refine fun w0 w1 w2 w3 s => ⟨?_, fun hne => ?_⟩
    · rintro ⟨rfl, rfl, rfl, rfl⟩
      exact execXoSeed_zero s
    · exact execXoSeed_of_ne_zero (mt xoWords_eq_zero_iff.mp hne) s

/-- A draw in a run: the rest runs on the stepped engine. -/
theorem execAll_xoNext64 {s : State} (hs : s.xo.seeded = true) (rest : List Instr) : execAll (.xoNext64 :: rest) s =
    execAll rest (respond .ok (bytesLe64 (xoOut s.xo.words)) (writeXoWords (xoStep s.xo.words) s)) :=
  execAll_cons_of_ends rest (execXoNext64_of_seeded hs) (inProgress_of_not_draws rfl _)

theorem execAll_xoSeed_zero (s : State) (rest : List Instr) : execAll (.xoSeed 0 0 0 0 :: rest) s =
    execAll rest (respond .ok [] (buildXo (zeroSeedSubst s.params) s)) :=
  execAll_cons_of_ends rest (execXoSeed_zero s) (inProgress_of_not_draws rfl _)

/-- Settles O33: the two draws scramble `z1` and `z1 ^ z2 ^ z0`, and R88 asks that neither is 0 and that they differ. -/
theorem zeroSeedIsSafe : Obligations.ZeroSeedIsSafe := by
  unfold Obligations.ZeroSeedIsSafe
  intro s hadmissible
  have hseed : zeroSeedSubst s.params ≠ xoZero := xoConstruct_zero s.params ▸ xoConstruct_ne_zero hadmissible _
  obtain ⟨hz1, hsum, hz02⟩ := hadmissible
  have hs1 : (xoStep (zeroSeedSubst s.params)).s1 = s.params.z0 ^^^ s.params.z1 ^^^ s.params.z2 :=
    congrArg XoWords.s1 (xoStep_eq _)
  rw [execAll_xoSeed_zero, execAll_xoNext64 rfl, execAll_xoNext64 rfl, execAll_nil]
  refine ⟨_, xoOut (zeroSeedSubst s.params), xoOut (xoStep (zeroSeedSubst s.params)), rfl, ?_, ?_, ?_, ?_, ?_⟩
  · simp
  · exact mt xoOut_eq_zero_iff.mp hz1
  · exact mt xoOut_eq_zero_iff.mp (hs1 ▸ hsum)
  · intro heq
    have hsame : s.params.z1 = s.params.z0 ^^^ s.params.z1 ^^^ s.params.z2 := (xoOut_eq_iff.mp heq).trans hs1
    rw [BitVec.xor_comm s.params.z0, BitVec.xor_assoc] at hsame
    exact hz02 (by simpa using hsame.symm)
  · exact xoStep_ne_zero (xoStep_ne_zero hseed)

/-- Zero replies in front: one further request for each, and the loop goes on behind them (R90). -/
theorem xoSeedLoop_zeros_append {zs : List EntropyBytes} (hz : ∀ z ∈ zs, ∀ x ∈ z.toList, x = 0#8)
    (events : List EntropyEvent) : xoSeedLoop (zs.map .ok ++ events) =
      ((xoSeedLoop events).1, (xoSeedLoop events).2.1 + zs.length, (xoSeedLoop events).2.2) := by
  induction zs with
  | nil => rfl
  | cons z zs ih =>
    rw [List.forall_mem_cons] at hz
    obtain ⟨hfirst, hrest⟩ := hz
    have hzero : xoDecodeSeed z.toList = xoZero := (xoDecodeSeed_eq_zero_iff z.length_toList).mpr hfirst
    simp only [List.map_cons, List.cons_append, xoSeedLoop, hzero, if_true, ih hrest, List.length_cons, Nat.add_assoc]

/-- The loop over zero replies and what stops it at once behind them. -/
theorem xoSeedLoop_of_zeros {zs : List EntropyBytes} (hz : ∀ z ∈ zs, ∀ x ∈ z.toList, x = 0#8)
    {events all rest : List EntropyEvent} {stop : XoDraw} (hall : all = zs.map .ok ++ events)
    (hstop : xoSeedLoop events = (stop, 0, rest)) : xoSeedLoop all = (stop, zs.length, rest) := by
  rw [hall, xoSeedLoop_zeros_append hz, hstop, Nat.zero_add]

theorem xoSeedLoop_of_seed {b : EntropyBytes} (hb : ∃ x ∈ b.toList, x ≠ 0#8) (rest : List EntropyEvent) :
    xoSeedLoop (.ok b :: rest) = (.seed (xoDecodeSeed b.toList), 0, rest) := by
  have hne : xoDecodeSeed b.toList ≠ xoZero := by
    rw [Ne, xoDecodeSeed_eq_zero_iff b.length_toList]
    simpa using hb
  rw [xoSeedLoop, if_neg hne]

section Await

variable {s : State} {n : Nat} {rest : List EntropyEvent}

theorem awaitXoSeed_of_loop_seed {w : XoWords} (h : xoSeedLoop s.entropy = (.seed w, n, rest)) : awaitXoSeed s =
    .next (respond .ok [] (buildXo w (drawn rest { s with requests := s.requests ++ List.replicate n 32 }))) := by
  simp only [awaitXoSeed, h, finish]

theorem awaitXoSeed_of_loop_failed {e : ErrorCode} (h : xoSeedLoop s.entropy = (.failed e, n, rest)) : awaitXoSeed s =
    .next (respond .entropyFail (bytesLe32 e) (drawn rest { s with requests := s.requests ++ List.replicate n 32 })) := by
  simp only [awaitXoSeed, h, raise]

theorem awaitXoSeed_of_loop_waiting (h : xoSeedLoop s.entropy = (.waiting, n, rest)) : awaitXoSeed s =
    .next { s with
      requests := s.requests ++ List.replicate n 32, entropy := rest, inFlight := some .xoSeedrng } := by
  simp only [awaitXoSeed, h, stall]

end Await

/-- Settles O34: the loop runs past the zero replies, and the event behind them says how it stops. -/
theorem xoSeedrngRedraws : Obligations.XoSeedrngRedraws := by
  unfold Obligations.XoSeedrngRedraws
  intro s zs hz
  have hrequests : s.requests ++ List.replicate (zs.length + 1) 32 =
      (request 32 s).requests ++ List.replicate zs.length 32 := by
    rw [request_requests, List.append_assoc, List.replicate_succ, List.singleton_append]
  rw [hrequests]
  refine ⟨fun b rest hb he => ?_, fun e rest he => ?_, fun he => ?_, fun rest he => ?_⟩
  · rw [← xoDecodeSeed_eq b.length_toList]
    exact awaitXoSeed_of_loop_seed (s := request 32 s) (xoSeedLoop_of_zeros hz he (xoSeedLoop_of_seed hb rest))
  · exact awaitXoSeed_of_loop_failed (s := request 32 s) (xoSeedLoop_of_zeros hz he rfl)
  · have hnil : s.entropy = zs.map .ok ++ [] := he.trans (List.append_nil _).symm
    exact awaitXoSeed_of_loop_waiting (s := request 32 s) (xoSeedLoop_of_zeros hz hnil rfl)
  · exact awaitXoSeed_of_loop_waiting (s := request 32 s) (xoSeedLoop_of_zeros hz he rfl)

/-- Settles O39: the gate, the seeded check, and the four images. -/
theorem xoSaveShowsTheWords : Obligations.XoSaveShowsTheWords := by
  unfold Obligations.XoSaveShowsTheWords
  refine ⟨fun p hpersist => decode_code (c := .xoSave) hpersist rfl, fun s => ⟨execXoSave_of_seeded, ?_, ?_⟩⟩
  · exact exec_of_unseeded_of_wf (i := .xoSave) rfl
  · exact exec_of_absent (i := .xoSave)

/-- Settles O40: the gate, then the check of the four words. -/
theorem xoLoadStoresOrRefuses : Obligations.XoLoadStoresOrRefuses := by
  unfold Obligations.XoLoadStoresOrRefuses
  constructor
  · intro p b hpersist hb
    rw [← memRead64_of_length (a := 24) hb]
    exact decode_code (c := .xoLoad) hpersist hb
  · refine fun w0 w1 w2 w3 s => ⟨fun hpersist hne => ?_, fun hpersist => ?_, exec_of_absent (i := .xoLoad w0 w1 w2 w3)⟩
    · exact execXoLoad_of_ne_zero hpersist (mt xoWords_eq_zero_iff.mp hne)
    · rintro ⟨rfl, rfl, rfl, rfl⟩
      exact execXoLoad_of_zero hpersist

end Sys2Proof.Machine

/-! # Which status a frame gets, and that a status other than `OK` cancels every write (spec/60_exceptions.md R100 to R106)

A command of the build answers by the first of these that applies: the seeded check, the check of the image, its own rule.
Its own rule ends with `OK`, or, for a `SEEDRNG`, waits for the entropy source or ends with the source's failure. -/

namespace Sys2Proof.Machine

/-- Settles O10: the command passes the gate and fails the seeded check. -/
theorem unseededEngineAnswersNotSeeded : Obligations.UnseededEngineAnswersNotSeeded := by
  unfold Obligations.UnseededEngineAnswersNotSeeded
  exact fun i s hwf hn hs => exec_of_unseeded_of_wf hn hwf hs

/-! ## How a command's own rule ends -/

/-- The command ended with `OK`, whatever it wrote. -/
def EndsOk (s t : State) : Prop := ∃ q u, t = respond .ok q u ∧ u.responses = s.responses

/-- The command ended with a failure of the entropy source (R57, R101): it wrote nothing but the entropy port. -/
def EndsWithFailure (s t : State) : Prop :=
  ∃ e rest reqs, .fail e ∈ s.entropy ∧
    t = respond .entropyFail (bytesLe32 e) (drawn rest { s with requests := reqs })

/-- A response that a transition adds is the one it gives by `respond`. -/
theorem response_eq_of_respond {s t u : State} {st : Status} {q : List Byte} {r : Response} (ht : t = respond st q u)
    (hu : u.responses = s.responses) (hr : t.responses = s.responses ++ [r]) : r = ⟨st, q⟩ := by
  simpa [ht, hu, eq_comm] using hr

/-- A failure that stops the re-draw loop is one the source gave (R90). -/
theorem xoSeedLoop_failed_mem {events : List EntropyEvent} {e : ErrorCode} (h : (xoSeedLoop events).1 = .failed e) :
    .fail e ∈ events := by
  fun_induction xoSeedLoop events with
  | case3 e' rest =>
    obtain rfl : e' = e := by simpa using h
    exact List.mem_cons_self
  | case4 b rest w hz r ih => exact List.mem_cons_of_mem _ (ih h)
  | case1 | case2 | case5 => cases h

/-- What a wait for the entropy source can do: no response yet, or one of the two ends of the command. -/
theorem resume_next {d : SeedDraw} {s t : State} (h : resume d s = .next t) :
    t.responses = s.responses ∨ EndsWithFailure s t ∨ EndsOk s t := by
  cases d with
  | pcgSeedrng =>
    obtain ⟨-, rfl⟩ | ⟨rest, -, rfl⟩ | ⟨e, rest, he, rfl⟩ | ⟨b, rest, -, rfl⟩ := awaitPcgSeed_next h
    · exact .inl rfl
    · exact .inl rfl
    · exact .inr (.inl ⟨e, rest, s.requests, he ▸ List.mem_cons_self, rfl⟩)
    · exact .inr (.inr ⟨_, _, rfl, rfl⟩)
  | xoSeedrng =>
    obtain ⟨-, rfl⟩ | ⟨e, he, rfl⟩ | ⟨w, -, rfl⟩ := awaitXoSeed_next h
    · exact .inl rfl
    · exact .inr (.inl ⟨e, _, _, xoSeedLoop_failed_mem he, rfl⟩)
    · exact .inr (.inr ⟨_, _, rfl, rfl⟩)

/-! ## What a command of the build answers -/

theorem wf_of_decode {p : Params} {f : Frame} {i : Instr} (h : decode p f = .ok i) : i.wf p = true := by
  obtain ⟨c, -, hpresent, -, rfl⟩ := decode_ok h
  rw [← present_command, command_assemble, hpresent]

/-- A `LOAD` of a bad image (R104). -/
theorem exec_of_badImage {i : Instr} {s : State} (hwf : i.wf s.params = true) (hb : badImage i = true) :
    exec i s = .next (respond .badState [] s) := by
  cases i with
  | pcgLoad st ic => exact execPcgLoad_of_even hwf (by simpa [badImage, BitVec.getLsbD] using hb)
  | xoLoad w0 w1 w2 w3 =>
    obtain ⟨⟨⟨rfl, rfl⟩, rfl⟩, rfl⟩ := by simpa [badImage] using hb
    exact execXoLoad_of_zero hwf
  | pcgSeed | pcgSeedrng | pcgNext32 | pcgNext64 | pcgFill | pcgTryfill | pcgAdvance | pcgSave | pcgStat => cases hb
  | xoSeed | xoSeedrng | xoNext32 | xoNext64 | xoFill | xoTryfill | xoJump | xoSave | xoStat => cases hb

/-- A command that needs a seeded engine, on one that is seeded. -/
theorem exec_endsOk_of_seeded {i : Instr} {s t : State} (hn : i.command.needsInstance = true)
    (hwf : i.wf s.params = true) (hs : s.seededFor i.command = true) (h : exec i s = .next t) : EndsOk s t := by
  have hchecked : ∃ q u, u.responses = s.responses ∧ exec i s =
      requirePresent (i.wf s.params) s (requireSeeded (s.seededFor i.command) s (finish q u)) := by
    cases hp : i.command.onPcg with
    | true =>
      obtain ⟨q, w, hexec⟩ := exec_needsInstance_pcg hn hp
      exact ⟨q s, writePcgState (w s) s, rfl, by simpa [State.seededFor, hp] using hexec s⟩
    | false =>
      obtain ⟨q, w, -, hexec⟩ := exec_needsInstance_xo hn hp
      exact ⟨q s, writeXoWords (w s) s, rfl, by simpa [State.seededFor, hp] using hexec s⟩
  obtain ⟨q, u, hu, hexec⟩ := hchecked
  rw [hexec, requirePresent_of_present hwf, requireSeeded_of_seeded hs] at h
  exact ⟨q, u, (finish_eq_next _ _ _).mp h, hu⟩

/-- A command that needs no seeded engine and no entropy, with no bad image: `SEED`, `LOAD`, `STAT`. -/
theorem exec_endsOk_of_not_needsInstance {i : Instr} {s t : State} (hn : i.command.needsInstance = false)
    (hd : i.command.drawsEntropy = false) (hwf : i.wf s.params = true) (hb : badImage i = false)
    (h : exec i s = .next t) : EndsOk s t := by
  cases i with
  | pcgSeed seed seq => exact ⟨_, _, execPcgSeed_next.mp h, rfl⟩
  | pcgLoad st ic =>
    have hodd : ic.getLsbD 0 = true := by simpa [badImage, BitVec.getLsbD] using hb
    exact ⟨_, _, (Host.Outcome.next.inj ((execPcgLoad_of_odd hwf hodd).symm.trans h)).symm, rfl⟩
  | pcgStat => exact ⟨_, _, execPcgStat_next.mp h, rfl⟩
  | xoSeed w0 w1 w2 w3 => exact ⟨_, _, execXoSeed_next.mp h, rfl⟩
  | xoLoad w0 w1 w2 w3 =>
    have hne : (⟨w0, w1, w2, w3⟩ : XoWords) ≠ xoZero := by
      rw [Ne, xoWords_eq_zero_iff]
      simpa [badImage] using hb
    exact ⟨_, _, (Host.Outcome.next.inj ((execXoLoad_of_ne_zero hwf hne).symm.trans h)).symm, rfl⟩
  | xoStat => exact ⟨_, _, execXoStat_next.mp h, rfl⟩
  | pcgSeedrng | xoSeedrng => cases hd
  | pcgNext32 | pcgNext64 | pcgFill | pcgTryfill | pcgAdvance | pcgSave => cases hn
  | xoNext32 | xoNext64 | xoFill | xoTryfill | xoJump | xoSave => cases hn

/-- Everything a command of the build can answer, by the priority of R105. -/
theorem exec_next_of_wf {i : Instr} {s t : State} (hwf : i.wf s.params = true) (h : exec i s = .next t) :
    if i.command.needsInstance = true ∧ s.seededFor i.command = false then t = respond .notSeeded [] s
    else if badImage i = true then t = respond .badState [] s
    else EndsOk s t ∨ (i.command.drawsEntropy = true ∧ (t.responses = s.responses ∨ EndsWithFailure s t)) := by
  split_ifs with hunseeded hbad
  · obtain ⟨hn, hs⟩ := hunseeded
    simpa [exec_of_unseeded_of_wf hn hwf hs, eq_comm] using h
  · simpa [exec_of_badImage hwf hbad, eq_comm] using h
  · cases hd : i.command.drawsEntropy with
    | true =>
      obtain ⟨d, n, hexec⟩ := exec_of_draws hd
      obtain hwaits | hfails | hok := resume_next (hexec s ▸ h)
      · exact .inr ⟨rfl, .inl hwaits⟩
      · exact .inr ⟨rfl, .inr hfails⟩
      · exact .inl hok
    | false =>
      left
      cases hn : i.command.needsInstance with
      | true => exact exec_endsOk_of_seeded hn hwf (by simpa [hn] using hunseeded) h
      | false => exact exec_endsOk_of_not_needsInstance hn hd hwf (by simpa using hbad) h

/-! ## The statuses (R100, R105) and the cancelled writes (R106) -/

/-- The status of a response to a command of the build (R105). -/
theorem exec_status {i : Instr} {s t : State} {r : Response} (hwf : i.wf s.params = true) (h : exec i s = .next t)
    (hr : t.responses = s.responses ++ [r]) :
    if i.command.needsInstance = true ∧ s.seededFor i.command = false then r.status = .notSeeded
    else if badImage i = true then r.status = .badState
    else r.status = .ok ∨ (r.status = .entropyFail ∧ i.command.drawsEntropy = true) := by
  have hanswer := exec_next_of_wf hwf h
  split_ifs at hanswer ⊢
  · rw [response_eq_of_respond hanswer rfl hr]
  · rw [response_eq_of_respond hanswer rfl hr]
  · obtain ⟨q, u, ht, hu⟩ | ⟨hd, hnone | ⟨e, rest, reqs, -, ht⟩⟩ := hanswer
    · exact .inl (by rw [response_eq_of_respond ht hu hr])
    · simp [hnone] at hr
    · exact .inr ⟨by rw [response_eq_of_respond ht rfl hr], hd⟩

/-- Settles O12: an illegal frame is answered before any check, and a decoded command by `exec_status`. -/
theorem statusPriority : Obligations.StatusPriority := by
  unfold Obligations.StatusPriority
  refine ⟨rfl, fun s t f rest r hp h hr => ?_⟩
  cases hf : decode s.params f with
  | error e =>
    obtain rfl : respond .illegalCmd [] { s with hostEvents := rest } = t := by simpa [step_of_illegal hp hf] using h
    rw [response_eq_of_respond rfl rfl hr]
  | ok i =>
    exact exec_status (s := { s with hostEvents := rest }) (wf_of_decode hf) ((step_of_command hp hf).symm.trans h) hr

/-- The command's writes are cancelled, nothing is in progress, and the response `r` carries the information of R100. -/
def Cancelled (s t : State) (r : Response) : Prop :=
  t.pcg = s.pcg ∧ t.xo = s.xo ∧ t.params = s.params ∧ t.freeIndex = s.freeIndex ∧ t.inFlight = none ∧
    ((r.status ≠ .entropyFail ∧ r.payload = [] ∧ t.entropy = s.entropy ∧ t.requests = s.requests) ∨
     (r.status = .entropyFail ∧ ∃ e, .fail e ∈ s.entropy ∧ r.payload = bytesLe32 e))

section Cancelled

variable {s t : State} {r : Response} (hr : t.responses = s.responses ++ [r])
include hr

/-- A status given on the state before the command (R102 to R104). -/
theorem cancelled_of_respond {st : Status} (hst : st ≠ .entropyFail) (hidle : s.inFlight = none)
    (ht : t = respond st [] s) : Cancelled s t r := by
  obtain rfl := response_eq_of_respond ht rfl hr
  obtain rfl := ht
  exact ⟨rfl, rfl, rfl, rfl, hidle, .inl ⟨hst, rfl, rfl, rfl⟩⟩

theorem EndsWithFailure.cancelled (h : EndsWithFailure s t) : Cancelled s t r := by
  obtain ⟨e, rest, reqs, he, ht⟩ := h
  obtain rfl := response_eq_of_respond ht rfl hr
  obtain rfl := ht
  exact ⟨rfl, rfl, rfl, rfl, rfl, .inr ⟨rfl, e, he, rfl⟩⟩

theorem EndsOk.status_eq (h : EndsOk s t) : r.status = .ok := by
  obtain ⟨q, u, ht, hu⟩ := h
  rw [response_eq_of_respond ht hu hr]

variable (hst : r.status ≠ .ok)
include hst

theorem resume_cancelled {d : SeedDraw} (h : resume d s = .next t) : Cancelled s t r := by
  obtain hnone | hfails | hok := resume_next h
  · simp [hnone] at hr
  · exact hfails.cancelled hr
  · exact absurd (hok.status_eq hr) hst

theorem exec_cancelled {i : Instr} (hwf : i.wf s.params = true) (hidle : s.inFlight = none) (h : exec i s = .next t) :
    Cancelled s t r := by
  have hanswer := exec_next_of_wf hwf h
  split_ifs at hanswer
  · exact cancelled_of_respond hr (by decide) hidle hanswer
  · exact cancelled_of_respond hr (by decide) hidle hanswer
  · obtain hok | ⟨-, hnone | hfails⟩ := hanswer
    · exact absurd (hok.status_eq hr) hst
    · simp [hnone] at hr
    · exact hfails.cancelled hr

end Cancelled

/-- Settles O11: of the five kinds of step, a reset and an idle step give no response, and the others cancel. -/
theorem nonOkStatusCancelsEveryWrite : Obligations.NonOkStatusCancelsEveryWrite := by
  unfold Obligations.NonOkStatusCancelsEveryWrite
  intro s t r h hr hst
  obtain ⟨rest, -, rfl⟩ | ⟨d, -, -, h⟩ | ⟨f, rest, i, hidle, -, hf, h⟩ | ⟨f, rest, e, hidle, -, -, ht⟩ | ⟨-, -, rfl⟩ :=
    step_next h
  · simp at hr
  · exact resume_cancelled hr hst h
  · exact exec_cancelled (s := { s with hostEvents := rest }) hr hst (wf_of_decode hf) hidle h
  · exact cancelled_of_respond (s := { s with hostEvents := rest }) hr (by decide) hidle ht
  · simp at hr

end Sys2Proof.Machine

/-! # Seeds that coincide (spec/70_reset_and_hazards.md R119) -/

namespace Sys2Proof.Machine

/-- The construction reads `seq` shifted left by one (R66), so its bit 63 is lost. -/
theorem pcgConstruct_flip_bit_63 (seed seq : Word) :
    pcgConstruct seed (seq ^^^ 0x8000000000000000#64) = pcgConstruct seed seq := by
  have hshift : (seq ^^^ 0x8000000000000000#64) <<< 1 = seq <<< 1 := by
    rw [BitVec.shiftLeft_xor_distrib, show 0x8000000000000000#64 <<< 1 = 0#64 from rfl, BitVec.xor_zero]
  simp only [pcgConstruct, hshift]

/-- Constructing from the substitute stores it, as constructing from zeros does. -/
@[simp] theorem xoConstruct_zeroSeedSubst (p : Params) : xoConstruct p (zeroSeedSubst p) = zeroSeedSubst p := ite_self _

theorem execXoSeed_zeroSeedSubst (s : State) :
    execXoSeed s.params.z0 s.params.z1 s.params.z2 s.params.z3 s =
      .next (respond .ok [] (buildXo (zeroSeedSubst s.params) s)) := by
  rw [execXoSeed_next, ← zeroSeedSubst, xoConstruct_zeroSeedSubst]

/-- Settles O49: the two seeds of each pair construct the same engine. -/
theorem coincidingSeeds : Obligations.CoincidingSeeds := by
  unfold Obligations.CoincidingSeeds
  constructor
  · intro seed seq s
    exact execPcgSeed_next.mpr (by rw [pcgConstruct_flip_bit_63])
  · intro s _
    exact (execXoSeed_zeroSeedSubst s).trans (execXoSeed_zero s).symm

end Sys2Proof.Machine

/-! # Only a reset clears a seeded flag (spec/10_state.md R17; spec/70_reset_and_hazards.md R112) -/

namespace Sys2Proof.Machine

/-- An engine seeded in `s` is seeded in `t`. -/
def KeepsSeeded (s t : State) : Prop :=
  (s.pcg.seeded = true → t.pcg.seeded = true) ∧ (s.xo.seeded = true → t.xo.seeded = true)

theorem ConstructsPcg.keepsSeeded {f : State → Result} {s t : State} (h : ConstructsPcg f s t) : KeepsSeeded s t := by
  obtain ⟨-, hxo, ⟨hpcg, -⟩ | ⟨hseeded, -, -⟩⟩ := h
  · exact ⟨hpcg ▸ id, hxo ▸ id⟩
  · exact ⟨fun _ => hseeded, hxo ▸ id⟩

theorem ConstructsXo.keepsSeeded {f : State → Result} {s t : State} (h : ConstructsXo f s t) : KeepsSeeded s t := by
  obtain ⟨-, hpcg, ⟨hxo, -⟩ | ⟨hseeded, -, -⟩⟩ := h
  · exact ⟨hpcg ▸ id, hxo ▸ id⟩
  · exact ⟨hpcg ▸ id, fun _ => hseeded⟩

theorem exec_keepsSeeded {i : Instr} {s t : State} (h : exec i s = .next t) : KeepsSeeded s t := by
  cases hp : i.command.onPcg with
  | true =>
    cases hc : i.command.constructs with
    | true => exact (exec_constructs_pcg hc hp h).keepsSeeded
    | false =>
      obtain ⟨st, q, w, rfl⟩ := exec_next_of_not_constructs_pcg hc hp h
      exact ⟨id, id⟩
  | false =>
    cases hc : i.command.constructs with
    | true => exact (exec_constructs_xo hc hp h).keepsSeeded
    | false =>
      obtain ⟨st, q, w, -, rfl⟩ := exec_next_of_not_constructs_xo hc hp h
      exact ⟨id, id⟩

theorem resume_keepsSeeded {d : SeedDraw} {s t : State} (h : resume d s = .next t) : KeepsSeeded s t := by
  cases d with
  | pcgSeedrng => exact (awaitPcgSeed_constructs h).keepsSeeded
  | xoSeedrng => exact (awaitXoSeed_constructs h).keepsSeeded

/-- Of the five kinds of step, only the reset event clears a flag. -/
theorem step_keepsSeeded {s t : State} (hev : ∀ rest, s.hostEvents ≠ .reset :: rest) (h : step s = .next t) :
    KeepsSeeded s t := by
  obtain ⟨rest, hreset, -⟩ | ⟨d, -, -, h⟩ | ⟨f, rest, i, -, -, -, h⟩ | ⟨f, rest, e, -, -, -, rfl⟩ | ⟨-, -, rfl⟩ :=
    step_next h
  · exact absurd hreset (hev rest)
  · exact resume_keepsSeeded h
  · exact exec_keepsSeeded (s := { s with hostEvents := rest }) h
  · exact ⟨id, id⟩
  · exact ⟨id, id⟩

/-- Settles O7: a reset step is `resetBlock`, and no other kind of step clears a flag (`step_keepsSeeded`). -/
theorem resetEvent : Obligations.ResetEvent := by
  unfold Obligations.ResetEvent
  refine ⟨fun s rest hev => ?_, fun s t hev h => step_keepsSeeded hev h, fun s => step_of_idle⟩
  exact ⟨_, step_of_reset hev, rfl, rfl, rfl, rfl, rfl, rfl, rfl, rfl⟩

end Sys2Proof.Machine

/-! # A `SEEDRNG` that the entropy source never lets end (spec/70_reset_and_hazards.md R117, R121)

Against such a source a wait moves the entropy port only and leaves the command in progress; runs of waits, by steps of the
block or by the host's waiting, are then inductions on their number. -/

namespace Sys2Proof.Machine

/-- Nothing the source will do ends `d`: it gives no answer, or, to the re-draw loop of `XO.SEEDRNG`, only zeros. -/
def NeverEnds (d : SeedDraw) (events : List EntropyEvent) : Prop :=
  match d with
  | .pcgSeedrng => ∀ ev ∈ events, ev = .notYet
  | .xoSeedrng => ∀ ev ∈ events, ev = .notYet ∨ ∃ z, ev = .ok z ∧ ∀ x ∈ z.toList, x = 0#8

/-- From `s` to `t` only the entropy port moved: the command `d` is in progress in `t`, and the source still never lets it
end. -/
def HangsIn (d : SeedDraw) (s t : State) : Prop :=
  ∃ rest reqs, NeverEnds d rest ∧ t = { s with inFlight := some d, entropy := rest, requests := reqs }

theorem hangsIn_refl {d : SeedDraw} {s : State} (hd : s.inFlight = some d) (hs : NeverEnds d s.entropy) :
    HangsIn d s s :=
  ⟨s.entropy, s.requests, hs, by rw [← hd]⟩

theorem HangsIn.trans {d : SeedDraw} {s t u : State} (hst : HangsIn d s t) (htu : HangsIn d t u) : HangsIn d s u := by
  obtain ⟨_, _, -, rfl⟩ := hst
  obtain ⟨rest, reqs, hrest, rfl⟩ := htu
  exact ⟨rest, reqs, hrest, rfl⟩

theorem HangsIn.inFlight_eq {d : SeedDraw} {s t : State} (h : HangsIn d s t) : t.inFlight = some d := by
  obtain ⟨_, _, -, rfl⟩ := h
  rfl

theorem HangsIn.hostEvents_eq {d : SeedDraw} {s t : State} (h : HangsIn d s t) : t.hostEvents = s.hostEvents := by
  obtain ⟨_, _, -, rfl⟩ := h
  rfl

theorem HangsIn.neverEnds {d : SeedDraw} {s t : State} (h : HangsIn d s t) : NeverEnds d t.entropy := by
  obtain ⟨_, _, hrest, rfl⟩ := h
  exact hrest

/-! ## One wait -/

theorem xoSeedLoop_of_neverEnds {events : List EntropyEvent} (h : NeverEnds .xoSeedrng events) :
    ∃ n rest, xoSeedLoop events = (.waiting, n, rest) ∧ NeverEnds .xoSeedrng rest := by
  induction events with
  | nil => exact ⟨0, [], rfl, h⟩
  | cons ev events ih =>
    obtain ⟨hfirst, hevents⟩ := List.forall_mem_cons.mp h
    obtain rfl | ⟨z, rfl, hz⟩ := hfirst
    · exact ⟨0, events, rfl, hevents⟩
    · obtain ⟨n, rest, hloop, hrest⟩ := ih hevents
      have hredraw := xoSeedLoop_zeros_append (zs := [z]) (by simpa using hz) events
      rw [hloop] at hredraw
      exact ⟨n + 1, rest, hredraw, hrest⟩

theorem awaitPcgSeed_hangs {s : State} (h : NeverEnds .pcgSeedrng s.entropy) :
    ∃ t, awaitPcgSeed s = .next t ∧ HangsIn .pcgSeedrng s t := by
  cases he : s.entropy with
  | nil => exact ⟨_, awaitPcgSeed_of_nil he, s.entropy, s.requests, h, rfl⟩
  | cons ev rest =>
    obtain ⟨rfl, hrest⟩ := List.forall_mem_cons.mp (he ▸ h)
    exact ⟨_, awaitPcgSeed_of_notYet he, rest, s.requests, hrest, rfl⟩

theorem awaitXoSeed_hangs {s : State} (h : NeverEnds .xoSeedrng s.entropy) :
    ∃ t, awaitXoSeed s = .next t ∧ HangsIn .xoSeedrng s t := by
  obtain ⟨n, rest, hloop, hrest⟩ := xoSeedLoop_of_neverEnds h
  exact ⟨_, awaitXoSeed_of_loop_waiting hloop, rest, _, hrest, rfl⟩

theorem resume_hangs {d : SeedDraw} {s : State} (h : NeverEnds d s.entropy) :
    ∃ t, resume d s = .next t ∧ HangsIn d s t := by
  cases d with
  | pcgSeedrng => exact awaitPcgSeed_hangs h
  | xoSeedrng => exact awaitXoSeed_hangs h

/-! ## Any number of waits -/

/-- Without a reset, steps of the block leave the command in progress, however many there are. -/
theorem core_run_hangs {d : SeedDraw} (n : Nat) {s : State} (hd : s.inFlight = some d)
    (hev : ∀ rest, s.hostEvents ≠ .reset :: rest) (hs : NeverEnds d s.entropy) :
    ∃ t, core.run n s = .next t ∧ HangsIn d s t := by
  induction n generalizing s with
  | zero => exact ⟨s, rfl, hangsIn_refl hd hs⟩
  | succ k ih =>
    obtain ⟨t, hresume, hst⟩ := resume_hangs hs
    obtain ⟨u, hrun, htu⟩ := ih hst.inFlight_eq (hst.hostEvents_eq ▸ hev) hst.neverEnds
    exact ⟨u, (core_run_of_step ((step_of_inFlight hd hev).trans hresume) k).trans hrun, hst.trans htu⟩

/-- Waiting as often as there are entropy events uses them up, and the command is in progress still. -/
theorem waitFor_hangs {d : SeedDraw} (fuel : Nat) {s : State} (hd : s.inFlight = some d) (hs : NeverEnds d s.entropy)
    (hfuel : s.entropy.length ≤ fuel) :
    ∃ t, waitFor fuel d.command s = .next t ∧ HangsIn d s t ∧ t.entropy = [] := by
  induction fuel generalizing s with
  | zero => exact ⟨s, rfl, hangsIn_refl hd hs, List.eq_nil_of_length_eq_zero (Nat.le_zero.mp hfuel)⟩
  | succ k ih =>
    obtain ⟨t, hresume, hst⟩ := resume_hangs hs
    have hlength := resume_entropy_length hresume
    obtain ⟨u, hwait, htu, hempty⟩ := ih hst.inFlight_eq hst.neverEnds (by omega)
    rw [waitFor_succ k hd, hresume, andThen_next]
    exact ⟨u, hwait, hst.trans htu, hempty⟩

/-- A run that begins with such a `SEEDRNG` stops in it. -/
theorem execAll_hangs {i : Instr} {d : SeedDraw} {n : Nat} {s : State} (hexec : exec i s = resume d (request n s))
    (hi : i.command = d.command) (hs : NeverEnds d s.entropy) (is : List Instr) :
    ∃ t, execAll (i :: is) s = .next t ∧ HangsIn d (request n s) t ∧ t.entropy = [] := by
  obtain ⟨t, hresume, hst⟩ := resume_hangs (s := request n s) hs
  obtain ⟨u, hwait, htu, hempty⟩ := waitFor_hangs t.entropy.length hst.inFlight_eq hst.neverEnds le_rfl
  have hprogress : u.inProgress d.command = true := inProgress_iff.mpr ⟨d, htu.inFlight_eq, rfl⟩
  exact ⟨u, by simp [execAll, hexec, hresume, hi, hwait, hprogress], hst.trans htu, hempty⟩

/-! ## The obligations -/

/-- Settles O35: every step is a wait that leaves the command in progress, until a reset abandons it. -/
theorem xoSeedrngMayNeverEnd : Obligations.XoSeedrngMayNeverEnd := by
  unfold Obligations.XoSeedrngMayNeverEnd
  intro s hd hs
  constructor
  · intro hev n
    obtain ⟨t, hrun, _, _, -, rfl⟩ := core_run_hangs n hd hev hs
    exact ⟨_, hrun, rfl, rfl, rfl, rfl, rfl⟩
  · exact fun rest hev => ⟨_, step_of_reset hev, rfl, rfl⟩

/-- Settles O52: the run stops in its first command (`execAll_hangs`). -/
theorem hungRunHasNoFurtherResponses : Obligations.HungRunHasNoFurtherResponses := by
  unfold Obligations.HungRunHasNoFurtherResponses
  intro is s
  constructor
  · intro hs
    obtain ⟨t, hall, ⟨_, _, -, rfl⟩, hempty⟩ := execAll_hangs (i := .xoSeedrng) (d := .xoSeedrng) rfl rfl hs is
    exact ⟨_, hall, rfl, hempty, rfl, rfl, rfl, rfl⟩
  · intro hs
    obtain ⟨t, hall, ⟨_, _, -, rfl⟩, hempty⟩ := execAll_hangs (i := .pcgSeedrng) (d := .pcgSeedrng) rfl rfl hs is
    exact ⟨_, hall, rfl, hempty, rfl, rfl, rfl, rfl⟩

end Sys2Proof.Machine
